-- ==== Sys2Proof/Word.lean ====
section
/-! DEFINITION. Sys2Proof/Word.lean: the natural-number operators of 00_scope.md R13 that the datapath is written in. `v << n` is `v * 2 ^ n` and `v >> n` is `v / 2 ^ n`, which are written out where they are used. -/

namespace Sys2Proof

/-- `bit(v, i)` of 00_scope.md R13: `floor(v / 2^i) mod 2`, as a truth value. -/
def bit (v i : Nat) : Bool := v / 2 ^ i % 2 == 1

/-- `low(v, n)` of 00_scope.md R13: `v mod 2^n`. -/
def low (v n : Nat) : Nat := v % 2 ^ n

/-- `b2n(c)` of 00_scope.md R13: 1 if the condition is true, else 0. -/
def b2n (c : Bool) : Nat := if c then 1 else 0

end Sys2Proof
end

