-- ==== Sys2Proof/Config.lean ====
section
/-! DEFINITION. Sys2Proof/Config.lean: the build-time parameter `FMT` of the block (10_state.md R28) and the format parameters it fixes (00_scope.md R9), and the free values the outputs show before they settle. Every definition of the datapath takes a `Fmt` as data, so one generic algorithm serves both formats (00_scope.md R8, 40_representation.md R93). `T_PROP` (00_scope.md R11) has no place here: the model has no time and never reads it. -/

namespace Sys2Proof

/-- A build-time pair (EBITS, MBITS). Only `binary16` and `binary32` are legal values of `FMT` (00_scope.md R3). -/
structure Fmt where
  /-- `E`, the exponent field's width. -/
  ebits : Nat
  /-- `M`, the mantissa field's width. -/
  mbits : Nat
deriving DecidableEq, Repr

/-- Binary16: EBITS = 5, MBITS = 10 (00_scope.md R3). -/
abbrev binary16 : Fmt := ⟨5, 10⟩

/-- Binary32: EBITS = 8, MBITS = 23 (00_scope.md R3). -/
abbrev binary32 : Fmt := ⟨8, 23⟩

namespace Fmt

/-- `W = 1 + E + M`, the storage width (00_scope.md R9). -/
abbrev W (f : Fmt) : Nat := 1 + f.ebits + f.mbits

/-- `P = M + 1`, the precision with the implicit bit (00_scope.md R9). -/
abbrev P (f : Fmt) : Nat := f.mbits + 1

/-- `BIAS = 2^(E-1) - 1` (00_scope.md R9). -/
def bias (f : Fmt) : Nat := 2 ^ (f.ebits - 1) - 1

/-- `EMAXC = 2^E - 1`, the exponent code of infinities and NaNs (00_scope.md R9). -/
def emaxc (f : Fmt) : Nat := 2 ^ f.ebits - 1

/-- `QBIT = M - 1`, the quiet bit's position (00_scope.md R9). -/
def qbit (f : Fmt) : Nat := f.mbits - 1

/-- `X = M + 3`, the extra low bits the adder appends to each significand (00_scope.md R10). -/
def guard (f : Fmt) : Nat := f.mbits + 3

end Fmt

/-- Free value: what `y` shows while the inputs have not been stable for `T_PROP` (70_reset_and_hazards.md R233: any value). The argument numbers the input changes (log entry 5). -/
opaque unsettledY (f : Fmt) : Nat → BitVec f.W

/-- Free value: what a class output shows while the inputs have not been stable for `T_PROP` (70_reset_and_hazards.md R233: any value; log entry 5). -/
opaque unsettledClass : Nat → BitVec 6

end Sys2Proof
end

