-- ==== Sys2Proof/Syntax.lean ====
section
/-! DEFINITION. Sys2Proof/Syntax.lean: the commands of the block, one constructor per row of spec/opcode_table.json, and the rounding modes. A command has no operand field: both operands are values on ports (30_encoding.md R61). -/

namespace Sys2Proof

/-- The four rounding modes (00_scope.md R5, 30_encoding.md R63). -/
inductive RoundingMode where
  /-- TowardZero. -/
  | rz
  /-- NearestEven. -/
  | rne
  /-- TowardPositiveInfinity. -/
  | ru
  /-- TowardNegativeInfinity. -/
  | rd
deriving DecidableEq, Repr

/-- A command: an operation under an explicit rounding mode (30_encoding.md R60, R62). -/
inductive Instr where
  /-- `a + b` (42_add_sub.md R140). -/
  | fadd (rm : RoundingMode)
  /-- `a - b` (42_add_sub.md R153). -/
  | fsub (rm : RoundingMode)
  /-- `a * b` (43_mul.md R170). -/
  | fmul (rm : RoundingMode)
  /-- `a / b` (44_div.md R190). -/
  | fdiv (rm : RoundingMode)
deriving DecidableEq, Repr

/-- The mode a command carries; it is passed explicitly to every operation (00_scope.md R5). -/
def Instr.mode (i : Instr) : RoundingMode :=
  match i with
  | .fadd rm => rm
  | .fsub rm => rm
  | .fmul rm => rm
  | .fdiv rm => rm

/-- The mode's suffix in the spec's assembler syntax (30_encoding.md R63, R68). -/
def RoundingMode.suffix (rm : RoundingMode) : String :=
  match rm with
  | .rz => "RZ"
  | .rne => "RNE"
  | .ru => "RU"
  | .rd => "RD"

/-- The command's mnemonic with its required suffix (30_encoding.md R68). -/
def Instr.asm (i : Instr) : String :=
  match i with
  | .fadd rm => "FADD." ++ rm.suffix
  | .fsub rm => "FSUB." ++ rm.suffix
  | .fmul rm => "FMUL." ++ rm.suffix
  | .fdiv rm => "FDIV." ++ rm.suffix

end Sys2Proof
end

