-- ==== Sys2Proof/WellFormed.lean ====
section
/-! DEFINITION. Sys2Proof/WellFormed.lean: what is legal. Every command is well formed, because all sixteen command values are defined (30_encoding.md R64); the one thing that can be ill formed is the build parameter `FMT` (10_state.md R28). -/

namespace Sys2Proof

/-- `FMT` takes exactly one of two values; any other (EBITS, MBITS) pair is refused (00_scope.md R3, 10_state.md R28). -/
def Fmt.supported (f : Fmt) : Bool := f == binary16 || f == binary32

/-- Every operation is legal under every rounding mode (30_encoding.md R64). -/
def Instr.wellFormed (i : Instr) : Bool :=
  match i with
  | .fadd _ => true
  | .fsub _ => true
  | .fmul _ => true
  | .fdiv _ => true

end Sys2Proof
end

