-- ==== Sys2Proof/Decode.lean ====
section
/-! DEFINITION. Sys2Proof/Decode.lean: the command word `cmd[3:0] = {rm[1:0], op[1:0]}` (30_encoding.md R60), its decoder and its encoder. The block decodes four wires, and every value of them is a command (R64); the byte form is the host's, with the command in the low four bits (log entry 6). -/

namespace Sys2Proof

/-- Why a byte string holds no command. -/
inductive DecodeError where
  /-- There is no byte to read. -/
  | noByte
  /-- The byte is above 0xF, so it is no 4-bit command (30_encoding.md R65). -/
  | notFourBits
deriving DecidableEq, Repr

/-- The rounding-mode code (30_encoding.md R63). -/
def decodeMode (rm : BitVec 2) : RoundingMode :=
  if rm = 0b00#2 then .rz
  else if rm = 0b01#2 then .rne
  else if rm = 0b10#2 then .ru
  else .rd

/-- The operation code (30_encoding.md R62). -/
def decodePorts (op rm : BitVec 2) : Instr :=
  if op = 0b00#2 then .fadd (decodeMode rm)
  else if op = 0b01#2 then .fsub (decodeMode rm)
  else if op = 0b10#2 then .fmul (decodeMode rm)
  else .fdiv (decodeMode rm)

/-- `op` is `cmd[1:0]` (30_encoding.md R60). -/
def cmdOp (cmd : BitVec 4) : BitVec 2 := cmd.extractLsb' 0 2

/-- `rm` is `cmd[3:2]` (30_encoding.md R60). -/
def cmdMode (cmd : BitVec 4) : BitVec 2 := cmd.extractLsb' 2 2

/-- `cmd[3:0] = {rm[1:0], op[1:0]}` (30_encoding.md R60). -/
def cmdOf (op rm : BitVec 2) : BitVec 4 := rm ++ op

/-- The command a command word stands for. -/
def decodeCmd (cmd : BitVec 4) : Instr := decodePorts (cmdOp cmd) (cmdMode cmd)

/-- The command in the first byte of a byte string, with the bytes after it (log entry 6). -/
def decode (bytes : List (BitVec 8)) : Except DecodeError (Instr × List (BitVec 8)) :=
  match bytes with
  | [] => .error .noByte
  | b :: rest =>
    if b.toNat < 16 then .ok (decodeCmd (b.setWidth 4), rest) else .error .notFourBits

/-- The host's form of the decoder: bit 0 of `w` is bit 0 of the command, and the bits from `nbits` up are 0. -/
def decodeTableWord (nbits w : Nat) : Option Instr :=
  if w % 2 ^ nbits < 256 then
    match decode [BitVec.ofNat 8 (w % 2 ^ nbits)] with
    | .ok (i, _) => some i
    | .error _ => none
  else none

/-- The code of a rounding mode (30_encoding.md R63). -/
def encodeMode (rm : RoundingMode) : BitVec 2 :=
  match rm with
  | .rz => 0b00#2
  | .rne => 0b01#2
  | .ru => 0b10#2
  | .rd => 0b11#2

/-- The code of an operation (30_encoding.md R62). -/
def encodeOp (i : Instr) : BitVec 2 :=
  match i with
  | .fadd _ => 0b00#2
  | .fsub _ => 0b01#2
  | .fmul _ => 0b10#2
  | .fdiv _ => 0b11#2

/-- The command word of a command: `{rm, op}` (30_encoding.md R60). -/
def encodeCmd (i : Instr) : BitVec 4 := cmdOf (encodeOp i) (encodeMode i.mode)

/-- The byte form of a command: its word in the low four bits (log entry 6). -/
def encode (i : Instr) : List (BitVec 8) := [(encodeCmd i).setWidth 8]

end Sys2Proof
end

