-- ==== Sys2Proof/Machine/Operands.lean ====
section
/-! DEFINITION. Sys2Proof/Machine/Operands.lean: the operand and result encoding (30_encoding.md R66): `fp_decode`, `fp_encode`, the class predicates, the named constants and the helpers `quiet`, `neg` and `mag` (40_representation.md R80 to R91). -/

namespace Sys2Proof.Machine

/-- The three fields of an encoding (30_encoding.md R66): sign, exponent, mantissa. -/
structure Fields (f : Fmt) where
  /-- The sign bit. -/
  s : Bool
  /-- The biased exponent field. -/
  e : BitVec f.ebits
  /-- The mantissa field, without the implicit bit. -/
  m : BitVec f.mbits
deriving DecidableEq, Repr

/-- `fp_decode(x)` (40_representation.md R80). -/
def fpDecode (f : Fmt) (x : BitVec f.W) : Fields f where
  s := x.getLsbD (f.W - 1)
  e := x.extractLsb' f.mbits f.ebits
  m := x.extractLsb' 0 f.mbits

/-- `fp_encode(s, e, m) = {s, e, m}` (40_representation.md R81). -/
def fpEncode (f : Fmt) (v : Fields f) : BitVec f.W := BitVec.ofBool v.s ++ v.e ++ v.m

/-- `fp_encode` on the natural numbers the datapath computes, each of which fits its field (40_representation.md R81). -/
def pack (f : Fmt) (s : Bool) (e m : Nat) : BitVec f.W :=
  fpEncode f ⟨s, BitVec.ofNat f.ebits e, BitVec.ofNat f.mbits m⟩

/-- `x[W-1]`, the sign bit of an encoding. -/
def signOf (f : Fmt) (x : BitVec f.W) : Bool := (fpDecode f x).s

/-- The exponent field as an unsigned integer. -/
def expOf (f : Fmt) (x : BitVec f.W) : Nat := (fpDecode f x).e.toNat

/-- The mantissa field as an unsigned integer. -/
def manOf (f : Fmt) (x : BitVec f.W) : Nat := (fpDecode f x).m.toNat

/-- `isZero` (40_representation.md R83). -/
def isZero (f : Fmt) (x : BitVec f.W) : Bool := expOf f x == 0 && manOf f x == 0

/-- `isSubnormal` (40_representation.md R83). -/
def isSubnormal (f : Fmt) (x : BitVec f.W) : Bool := expOf f x == 0 && manOf f x != 0

/-- `isNormal` (40_representation.md R83). -/
def isNormal (f : Fmt) (x : BitVec f.W) : Bool := decide (0 < expOf f x) && decide (expOf f x < f.emaxc)

/-- `isInf` (40_representation.md R83). -/
def isInf (f : Fmt) (x : BitVec f.W) : Bool := expOf f x == f.emaxc && manOf f x == 0

/-- `isNaN` (40_representation.md R83). -/
def isNaN (f : Fmt) (x : BitVec f.W) : Bool := expOf f x == f.emaxc && manOf f x != 0

/-- `isFinite`: zero, subnormal or normal (40_representation.md R83). -/
def isFinite (f : Fmt) (x : BitVec f.W) : Bool := expOf f x != f.emaxc

/-- `isQuiet`: a NaN whose top mantissa bit is set (40_representation.md R85). -/
def isQuiet (f : Fmt) (x : BitVec f.W) : Bool := isNaN f x && bit (manOf f x) f.qbit

/-- `CNAN`, the canonical quiet NaN (40_representation.md R86): sign 0, exponent max, top mantissa bit only. -/
def cnan (f : Fmt) : BitVec f.W := pack f false f.emaxc (2 ^ f.qbit)

/-- `ZERO(s)` (40_representation.md R91). -/
def zero (f : Fmt) (s : Bool) : BitVec f.W := pack f s 0 0

/-- `INF(s)` (40_representation.md R91). -/
def inf (f : Fmt) (s : Bool) : BitVec f.W := pack f s f.emaxc 0

/-- `MAXF(s)`, the largest finite magnitude with sign `s` (40_representation.md R91). -/
def maxf (f : Fmt) (s : Bool) : BitVec f.W := pack f s (f.emaxc - 1) (2 ^ f.mbits - 1)

/-- `MINS`, the smallest subnormal (40_representation.md R91). -/
def mins (f : Fmt) : BitVec f.W := pack f false 0 1

/-- `MAXS`, the largest subnormal (40_representation.md R91). -/
def maxs (f : Fmt) : BitVec f.W := pack f false 0 (2 ^ f.mbits - 1)

/-- `MINN`, the smallest normal (40_representation.md R91). -/
def minn (f : Fmt) : BitVec f.W := pack f false 1 0

/-- `ONE`, 1.0 (40_representation.md R91). -/
def one (f : Fmt) : BitVec f.W := pack f false f.bias 0

/-- `quiet(x) = x OR 2^QBIT` (40_representation.md R87). -/
def quiet (f : Fmt) (x : BitVec f.W) : BitVec f.W := x ||| BitVec.ofNat f.W (2 ^ f.qbit)

/-- `neg(x) = x XOR 2^(W-1)` (40_representation.md R88). -/
def neg (f : Fmt) (x : BitVec f.W) : BitVec f.W := x ^^^ BitVec.ofNat f.W (2 ^ (f.W - 1))

/-- `mag(x) = x[W-2:0]` as an unsigned integer (40_representation.md R89). -/
def mag (f : Fmt) (x : BitVec f.W) : Nat := low x.toNat (f.W - 1)

end Sys2Proof.Machine
end

