-- ==== Sys2Proof/Machine/Flags.lean ====
section
/-! DEFINITION. Sys2Proof/Machine/Flags.lean: the only predicates the block puts out, the class outputs `cls_a` and `cls_b` (40_representation.md R92). The block has no flags and no condition codes, and computes no IEEE exception-status flags (10_state.md R24, 60_exceptions.md R213). -/

namespace Sys2Proof.Machine

/-- `fp_classify(x)` (40_representation.md R92): from bit 5 down, quiet, NaN, infinity, normal, subnormal, zero. -/
def fpClassify (f : Fmt) (x : BitVec f.W) : BitVec 6 :=
  BitVec.ofBool (isQuiet f x) ++ BitVec.ofBool (isNaN f x) ++ BitVec.ofBool (isInf f x) ++
    BitVec.ofBool (isNormal f x) ++ BitVec.ofBool (isSubnormal f x) ++ BitVec.ofBool (isZero f x)

end Sys2Proof.Machine
end

