-- ==== Sys2Proof/Machine/State.lean ====
section
/-! DEFINITION. Sys2Proof/Machine/State.lean: the state of one instance. The block holds no state (10_state.md R20): no registers, pc, flags, control registers or memory (R21 to R26, 20_memory.md R40). State is therefore its build-time parameter and its ports (R28, R30, R31), and two fields of the model's own for what the outputs show before they have settled (70_reset_and_hazards.md R233; log entry 5). -/

namespace Sys2Proof.Machine

/-- One instance of the block: `FMT` and what is on its ports. -/
structure State where
  /-- `FMT`, fixed when the block is built (10_state.md R28; log entry 1). -/
  fmt : Fmt
  /-- Input port `op` (10_state.md R30). -/
  op : BitVec 2
  /-- Input port `rm` (10_state.md R30). -/
  rm : BitVec 2
  /-- Input port `a` (10_state.md R30). -/
  a : BitVec fmt.W
  /-- Input port `b` (10_state.md R30). -/
  b : BitVec fmt.W
  /-- Output port `y` (10_state.md R31). -/
  y : BitVec fmt.W
  /-- Output port `cls_a` (10_state.md R31). -/
  clsA : BitVec 6
  /-- Output port `cls_b` (10_state.md R31). -/
  clsB : BitVec 6
  /-- The model's own: the outputs have settled since the inputs last changed (log entry 5). -/
  settled : Bool
  /-- The model's own: how many times the inputs have changed, which picks the free values the outputs show before they settle (log entry 5). -/
  draws : Nat
deriving DecidableEq, Repr

/-- Reasons for a fault: none. The block raises no exception for any input (60_exceptions.md R210), so no instruction raises one. Safe: the spec has no such case. -/
inductive Fault where
deriving DecidableEq, Repr

/-- Reasons for a refusal. -/
inductive Refusal where
  /-- Raised by `exec` for an instruction that has no meaning yet. Safe: the machine stops. -/
  | notModelled (mnemonic : String)
  /-- Raised by every instruction in a build whose `FMT` is neither binary16 nor binary32, which a model must refuse (00_scope.md R3, 60_exceptions.md R217). Safe: the machine stops. -/
  | unsupportedFormat (ebits mbits : Nat)
deriving DecidableEq, Repr

/-- An instance of a given build just after power-up, before any input has been presented. The block has no reset (70_reset_and_hazards.md R230), so the values on the ports are the model's choice (DESIGN CHOICE, log entries 2 and 3). -/
def State.powerUp (fmt : Fmt) : State where
  fmt := fmt
  op := 0
  rm := 0
  a := 0
  b := 0
  y := 0
  clsA := 0
  clsB := 0
  settled := false
  draws := 0

/-- The machine after reset: a binary32 instance at power-up (DESIGN CHOICE, log entry 1). -/
def State.reset : State := State.powerUp binary32

end Sys2Proof.Machine
end

