-- ==== Sys2Proof/Machine/Ops.lean ====
section
/-! DEFINITION. Sys2Proof/Machine/Ops.lean: the named operations over the ports: what the host can do (70_reset_and_hazards.md R237), reading the command, and driving the outputs. There is no memory operation, because there is no memory (20_memory.md R40), and no operation that takes an exception or returns from one, because the block has neither (60_exceptions.md R210, R219). -/

namespace Sys2Proof.Machine

/-- The three outputs of one evaluation (10_state.md R29, R31). -/
structure Outputs (f : Fmt) where
  /-- The result. -/
  y : BitVec f.W
  /-- The class predicates of `a`. -/
  clsA : BitVec 6
  /-- The class predicates of `b`. -/
  clsB : BitVec 6
deriving DecidableEq, Repr

/-- Whether these values on the input ports are a change of `op`, `rm`, `a` or `b` (70_reset_and_hazards.md R233). -/
def State.changedBy (s : State) (op rm : BitVec 2) (a b : BitVec s.fmt.W) : Bool :=
  op != s.op || rm != s.rm || a != s.a || b != s.b

/-- The host presents `op`, `rm`, `a` and `b` (70_reset_and_hazards.md R237 act 1). After a change of any of them, and until the next step, the outputs may take any value (R233): a free value each (log entry 5). With no change the inputs are stable, and the outputs stay as they are (R233, 10_state.md R34). -/
def State.present (s : State) (op rm : BitVec 2) (a b : BitVec s.fmt.W) : State :=
  let changed := s.changedBy op rm a b
  { s with
    op := op, rm := rm, a := a, b := b
    y := if changed then unsettledY s.fmt s.draws else s.y
    clsA := if changed then unsettledClass (2 * s.draws) else s.clsA
    clsB := if changed then unsettledClass (2 * s.draws + 1) else s.clsB
    settled := !changed && s.settled
    draws := if changed then s.draws + 1 else s.draws }

/-- The host presents a command word and leaves the operands on the ports as they are. -/
def State.presentCmd (s : State) (cmd : BitVec 4) : State :=
  s.present (cmdOp cmd) (cmdMode cmd) s.a s.b

/-- The host samples the outputs (70_reset_and_hazards.md R237 act 3). After an input change and before the next step it reads free values (R233). -/
def State.sample (s : State) : Outputs s.fmt := ⟨s.y, s.clsA, s.clsB⟩

/-- The command on the `op` and `rm` ports (10_state.md R22: nothing is fetched). -/
def State.command (s : State) : Instr := decodePorts s.op s.rm

/-- The state whose outputs have settled with result `y`: the class outputs depend on the operands alone (10_state.md R31), and the inputs stay. -/
def State.driven (s : State) (y : BitVec s.fmt.W) : State :=
  { s with y := y, clsA := fpClassify s.fmt s.a, clsB := fpClassify s.fmt s.b, settled := true }

/-- The end of every meaning: drive the outputs, or refuse a build whose `FMT` is neither format (60_exceptions.md R217). -/
def drive (s : State) (y : BitVec s.fmt.W) : Host.Outcome State Fault Refusal :=
  if s.fmt.supported then .next (s.driven y)
  else .refused (.unsupportedFormat s.fmt.ebits s.fmt.mbits)

end Sys2Proof.Machine
end

