-- ==== Sys2Proof/Machine/Rounding.lean ====
section
/-! DEFINITION. Sys2Proof/Machine/Rounding.lean: the datapath parts every operation shares (41_datapath.md R100 to R111): the mantissa normalizer, the rounding decision, the post-round carry and the overflow/underflow resolver. Significands are natural numbers and exponents integers, so nothing wraps (00_scope.md R13, 41_datapath.md R123; log entry 10). -/

namespace Sys2Proof.Machine

/-- The normalizer's loop (41_datapath.md R100): left shifts until bit `M` is set, at most `fuel` of them. -/
def normalizeLoop (f : Fmt) (fuel : Nat) (en : Int) (sig : Nat) : Int × Nat :=
  match fuel with
  | 0 => (en, sig)
  | fuel + 1 => if bit sig f.mbits then (en, sig) else normalizeLoop f fuel (en - 1) (sig * 2)

/-- `fp_normalize(e, m)` (41_datapath.md R100; R102 on a zero). The loop starts at exponent 1 and turns at most `M` times (R101; log entry 12). -/
def fpNormalize (f : Fmt) (e m : Nat) : Int × Nat :=
  if e ≠ 0 then ((e : Int), m + 2 ^ f.mbits)
  else if m = 0 then (0, 0)
  else normalizeLoop f f.mbits 1 m

/-- `inc(rm, rb, sb, s, lsb)`, the increment decision (41_datapath.md R104). -/
def inc (rm : RoundingMode) (rb sb s lsb : Bool) : Bool :=
  match rm with
  | .rz => false
  | .rne => (rb && sb) || (rb && !sb && lsb)
  | .ru => !s && (rb || sb)
  | .rd => s && (rb || sb)

/-- `fp_round(sig, rm, rb, sb, s)` (41_datapath.md R103). It never touches the exponent. -/
def fpRound (sig : Nat) (rm : RoundingMode) (rb sb s : Bool) : Nat :=
  sig + b2n (inc rm rb sb s (bit sig 0))

/-- `carry(en, sig)`, the caller's answer to a post-round carry (41_datapath.md R106). -/
def carry (f : Fmt) (en : Int) (sig : Nat) : Int × Nat :=
  if sig = 2 ^ (f.mbits + 1) then (en + 1, 2 ^ f.mbits) else (en, sig)

/-- `OVF(s, rm)`, the overflow result (41_datapath.md R108). -/
def ovf (f : Fmt) (s : Bool) (rm : RoundingMode) : BitVec f.W :=
  match rm, s with
  | .rne, _ => inf f s
  | .ru, false => inf f s
  | .rd, true => inf f s
  | .rz, _ => maxf f s
  | .ru, true => maxf f s
  | .rd, false => maxf f s

/-- The resolver's underflow branch, for `e <= 0` (41_datapath.md R109). -/
def resolveUnderflow (f : Fmt) (s : Bool) (e : Int) (sig xb : Nat) (sin : Bool) (rm : RoundingMode) : BitVec f.W :=
  let shift := (1 - e + xb).toNat
  let t :=
    if shift ≥ f.mbits + xb + 2 then fpRound 0 rm false true s
    else fpRound (sig / 2 ^ shift) rm (bit sig (shift - 1)) (low sig (shift - 1) != 0 || sin) s
  if t = 2 ^ f.mbits then pack f s 1 0 else pack f s 0 t

/-- `fp_resolve(s, e, sig, xb, sin, rm)` (41_datapath.md R107, R111): overflow (R108), underflow (R109), normal (R110). -/
def fpResolve (f : Fmt) (s : Bool) (e : Int) (sig xb : Nat) (sin : Bool) (rm : RoundingMode) : BitVec f.W :=
  if (f.emaxc : Int) ≤ e then ovf f s rm
  else if e ≤ 0 then resolveUnderflow f s e sig xb sin rm
  else pack f s e.toNat (sig - 2 ^ f.mbits)

/-- The common end of every datapath that rounds before it resolves: round, carry, resolve with `xb = 0` and `sin = 0` (42_add_sub.md R151, 43_mul.md R177, 44_div.md R198). -/
def roundThenResolve (f : Fmt) (s : Bool) (e : Int) (sig : Nat) (rb sb : Bool) (rm : RoundingMode) : BitVec f.W :=
  let c := carry f e (fpRound sig rm rb sb s)
  fpResolve f s c.1 c.2 0 false rm

/-- The branch on the candidate exponent that multiply and divide share (43_mul.md R177, R178; 44_div.md R198, R199). `wide` is the significand with the round bit as its lowest bit: it is rounded here when `e > 0`, and goes whole to the resolver otherwise, which then rounds once. -/
def roundOrDefer (f : Fmt) (s : Bool) (e : Int) (wide : Nat) (sb : Bool) (rm : RoundingMode) : BitVec f.W :=
  if 0 < e then roundThenResolve f s e (wide / 2) (bit wide 0) sb rm
  else fpResolve f s e wide 1 sb rm

end Sys2Proof.Machine
end

