-- ==== Sys2Proof/Machine/AddSub.lean ====
section
/-! DEFINITION. Sys2Proof/Machine/AddSub.lean: FADD and FSUB, `fp_adder` with its special-case dispatch (42_add_sub.md R140 to R156). -/

namespace Sys2Proof.Machine

/-- Step 4 on a zero operand, after the reorder: `b` is zero (42_add_sub.md R145). -/
def addZero (f : Fmt) (a b : BitVec f.W) (rm : RoundingMode) : BitVec f.W :=
  if rm = .rd ∧ isZero f a ∧ signOf f a ≠ signOf f b then zero f true
  else if isZero f a ∧ signOf f a ∧ ¬ signOf f b then b
  else a

/-- Step 6, the far path: the significand, exponent and round bit that stand for `a` with a tail of `b` below its retained bits; the sticky bit is 1 (42_add_sub.md R147). -/
def farParts (f : Fmt) (same : Bool) (sa : Nat) (ea : Int) : Nat × Int × Bool :=
  if same then (sa, ea, false)
  else if 2 ^ f.mbits < sa then (sa - 1, ea, true)
  else (2 ^ (f.mbits + 1) - 1, ea - 1, true)

/-- Step 7, the near path: the exact sum or difference in units of `2^(ea - BIAS - M - X)` (42_add_sub.md R148). -/
def nearSum (f : Fmt) (same : Bool) (sa sb d : Nat) : Nat :=
  let aWide := sa * 2 ^ f.guard
  let bWide := sb * 2 ^ f.guard / 2 ^ d
  if same then aWide + bWide else aWide - bWide

/-- Step 8's left shifts after cancellation: while `T < 2^(M+X)`, at most `fuel` of them (42_add_sub.md R150; log entry 12). -/
def leftShifts (f : Fmt) (fuel : Nat) (t : Nat) (e : Int) : Nat × Int :=
  match fuel with
  | 0 => (t, e)
  | fuel + 1 => if t < 2 ^ (f.mbits + f.guard) then leftShifts f fuel (t * 2) (e - 1) else (t, e)

/-- Step 8: normalize the raw sum `T`, round and resolve (42_add_sub.md R150, R151). -/
def finishSum (f : Fmt) (s : Bool) (e : Int) (t : Nat) (rm : RoundingMode) : BitVec f.W :=
  let carried := 2 ^ (f.mbits + f.guard + 1) ≤ t
  let extra := decide carried && bit t 0
  let n := if carried then (t / 2, e + 1) else leftShifts f (f.mbits + 1) t e
  roundThenResolve f s n.2 (n.1 / 2 ^ f.guard) (bit n.1 (f.guard - 1)) (low n.1 (f.guard - 1) != 0 || extra) rm

/-- Steps 5 to 8 for finite nonzero operands with `mag(a) >= mag(b)` (42_add_sub.md R146 to R151). The result's sign is `a`'s (R156). -/
def addFinite (f : Fmt) (a b : BitVec f.W) (rm : RoundingMode) : BitVec f.W :=
  let na := fpNormalize f (expOf f a) (manOf f a)
  let nb := fpNormalize f (expOf f b) (manOf f b)
  let d := na.1 - nb.1
  let s := signOf f a
  let same := signOf f a == signOf f b
  if (f.mbits : Int) + 2 < d then
    let p := farParts f same na.2 na.1
    roundThenResolve f s p.2.1 p.1 p.2.2 true rm
  else
    let t := nearSum f same na.2 nb.2 d.toNat
    if t = 0 then zero f (rm == .rd) else finishSum f s na.1 t rm

/-- Steps 4 to 8 for finite operands with `mag(a) >= mag(b)`. -/
def addOrdered (f : Fmt) (a b : BitVec f.W) (rm : RoundingMode) : BitVec f.W :=
  if isZero f b then addZero f a b rm else addFinite f a b rm

/-- `fp_adder(a, b, rm)` (42_add_sub.md R140): NaN (R141), infinities (R142, R143), reorder (R144), then the finite steps. -/
def fpAdder (f : Fmt) (a b : BitVec f.W) (rm : RoundingMode) : BitVec f.W :=
  if isNaN f a then quiet f a
  else if isNaN f b then quiet f b
  else if isInf f a ∧ isInf f b then (if signOf f a = signOf f b then a else cnan f)
  else if isInf f a then a
  else if isInf f b then b
  else if mag f a < mag f b then addOrdered f b a rm
  else addOrdered f a b rm

/-- `fp_sub(a, b, rm) = fp_adder(a, neg(b), rm)` (42_add_sub.md R153). -/
def fpSub (f : Fmt) (a b : BitVec f.W) (rm : RoundingMode) : BitVec f.W := fpAdder f a (neg f b) rm

/-- FADD (42_add_sub.md R140). -/
def execFadd (rm : RoundingMode) (s : State) : Host.Outcome State Fault Refusal :=
  drive s (fpAdder s.fmt s.a s.b rm)

/-- FSUB (42_add_sub.md R153). -/
def execFsub (rm : RoundingMode) (s : State) : Host.Outcome State Fault Refusal :=
  drive s (fpSub s.fmt s.a s.b rm)

end Sys2Proof.Machine
end

