-- ==== Sys2Proof/Machine/Div.lean ====
section
/-! DEFINITION. Sys2Proof/Machine/Div.lean: FDIV, `fp_divider` (44_div.md R190 to R200). -/

namespace Sys2Proof.Machine

/-- The dividend's significand and exponent after the pre-shift (44_div.md R196). -/
def preShift (sa sb : Nat) (ea : Int) : Nat × Int :=
  if sa < sb then (sa * 2, ea - 1) else (sa, ea)

/-- Steps 2 to 4 for finite nonzero operands: pre-shift, integer division, branch on the exponent (44_div.md R196 to R199). -/
def divFinite (f : Fmt) (a b : BitVec f.W) (rm : RoundingMode) : BitVec f.W :=
  let na := fpNormalize f (expOf f a) (manOf f a)
  let nb := fpNormalize f (expOf f b) (manOf f b)
  let p := preShift na.2 nb.2 na.1
  let dividend := p.1 * 2 ^ (f.mbits + 1)
  let e := p.2 - nb.1 + f.bias
  roundOrDefer f (signOf f a ^^ signOf f b) e (dividend / nb.2) (dividend % nb.2 != 0) rm

/-- `fp_divider(a, b, rm)` (44_div.md R190), special cases in the order of R191 to R195. -/
def fpDivider (f : Fmt) (a b : BitVec f.W) (rm : RoundingMode) : BitVec f.W :=
  if (isZero f a ∧ isZero f b) ∨ (isInf f a ∧ isInf f b) then cnan f
  else if isNaN f a then quiet f a
  else if isNaN f b then quiet f b
  else if isZero f b then inf f (signOf f a ^^ signOf f b)
  else if isInf f b then zero f (signOf f a ^^ signOf f b)
  else if isZero f a then zero f (signOf f a ^^ signOf f b)
  else if isInf f a then inf f (signOf f a ^^ signOf f b)
  else divFinite f a b rm

/-- FDIV (44_div.md R190). -/
def execFdiv (rm : RoundingMode) (s : State) : Host.Outcome State Fault Refusal :=
  drive s (fpDivider s.fmt s.a s.b rm)

end Sys2Proof.Machine
end

