-- ==== Sys2Proof/Machine/Mul.lean ====
section
/-! DEFINITION. Sys2Proof/Machine/Mul.lean: FMUL, `fp_multiplier` (43_mul.md R170 to R179). -/

namespace Sys2Proof.Machine

/-- Steps 2 to 4 for finite nonzero operands: exact product, position, branch on the exponent (43_mul.md R175 to R178). `{sig, rb}` together are the product without its low `sh - 1` bits. -/
def mulFinite (f : Fmt) (a b : BitVec f.W) (rm : RoundingMode) : BitVec f.W :=
  let na := fpNormalize f (expOf f a) (manOf f a)
  let nb := fpNormalize f (expOf f b) (manOf f b)
  let pr := na.2 * nb.2
  let high := 2 ^ (2 * f.mbits + 1) ≤ pr
  let sh := if high then f.mbits + 1 else f.mbits
  let e := na.1 + nb.1 - f.bias + (if high then 1 else 0)
  roundOrDefer f (signOf f a ^^ signOf f b) e (pr / 2 ^ (sh - 1)) (low pr (sh - 1) != 0) rm

/-- `fp_multiplier(a, b, rm)` (43_mul.md R170), special cases in the order of R171 to R174. -/
def fpMultiplier (f : Fmt) (a b : BitVec f.W) (rm : RoundingMode) : BitVec f.W :=
  if isNaN f a then quiet f a
  else if isNaN f b then quiet f b
  else if (isZero f a ∧ isInf f b) ∨ (isInf f a ∧ isZero f b) then cnan f
  else if isZero f a ∨ isZero f b then zero f (signOf f a ^^ signOf f b)
  else if isInf f a ∨ isInf f b then inf f (signOf f a ^^ signOf f b)
  else mulFinite f a b rm

/-- FMUL (43_mul.md R170). -/
def execFmul (rm : RoundingMode) (s : State) : Host.Outcome State Fault Refusal :=
  drive s (fpMultiplier s.fmt s.a s.b rm)

end Sys2Proof.Machine
end

