-- ==== Sys2Proof/Machine/Dispatch.lean ====
section
/-! DEFINITION. Sys2Proof/Machine/Dispatch.lean: one arm per command (10_state.md R32). -/

namespace Sys2Proof.Machine

def exec (i : Instr) (s : State) : Host.Outcome State Fault Refusal :=
  match i with
  | .fadd rm => Sys2Proof.Machine.execFadd rm s
  | .fsub rm => Sys2Proof.Machine.execFsub rm s
  | .fmul rm => Sys2Proof.Machine.execFmul rm s
  | .fdiv rm => Sys2Proof.Machine.execFdiv rm s

end Sys2Proof.Machine
end

