-- ==== Sys2Proof/Machine/Step.lean ====
section
/-! DEFINITION. Sys2Proof/Machine/Step.lean: one step is one evaluation: the inputs have been stable for at least `T_PROP`, and the outputs settle to the function of them (70_reset_and_hazards.md R233; log entry 4). -/

namespace Sys2Proof.Machine

/-- One evaluation of the command and operands on the input ports. -/
def step (s : State) : Host.Outcome State Fault Refusal := exec s.command s

/-- The host presents the 4-bit command in the low bits of `w`, with the operands left as they are (log entries 6 and 7). -/
def State.withFetchWord (s : State) (nbits w : Nat) : State :=
  s.presentCmd (BitVec.ofNat 4 (w % 2 ^ nbits))

end Sys2Proof.Machine
end

