-- ==== Sys2Proof/Machine/Exact.lean ====
section
/-! DEFINITION. Sys2Proof/Machine/Exact.lean: the meaning the datapath is held to. `value?` is the number an encoding stands for (40_representation.md R90), and `roundToFormat` is the exact rounding function that is normative for every finite result (41_datapath.md R120, R121). No instruction's meaning calls them; the statements compare the two. -/

namespace Sys2Proof.Machine

/-- `(-1)^s` as a rational. -/
def signFactor (s : Bool) : ℚ := if s then -1 else 1

/-- The number a finite encoding stands for (40_representation.md R90); infinities and NaNs have none. -/
def value? (f : Fmt) (x : BitVec f.W) : Option ℚ :=
  if isZero f x then some 0
  else if isSubnormal f x then
    some (signFactor (signOf f x) * manOf f x * (2 : ℚ) ^ (1 - (f.bias : Int) - f.mbits))
  else if isNormal f x then
    some (signFactor (signOf f x) * (2 ^ f.mbits + manOf f x : ℕ) * (2 : ℚ) ^ ((expOf f x : Int) - f.bias - f.mbits))
  else none

/-- `floor_log2(q)`: the integer `k` with `2^k <= q < 2^(k+1)` (41_datapath.md R120). -/
def floorLog2 (q : ℚ) : Int := Int.log 2 q

/-- `RoundToFormat(s, q, rm)` for an exact magnitude `q > 0` (41_datapath.md R120). -/
def roundToFormat (f : Fmt) (s : Bool) (q : ℚ) (rm : RoundingMode) : BitVec f.W :=
  let k := max (floorLog2 q) (1 - (f.bias : Int))
  let n : ℚ := q / (2 : ℚ) ^ (k - f.mbits)
  let frac : ℚ := n - ⌊n⌋
  let rb := decide (1 / 2 ≤ frac)
  let sb := decide (frac ≠ 0 ∧ frac ≠ 1 / 2)
  let r := carry f k (fpRound ⌊n⌋.toNat rm rb sb s)
  if 2 ^ f.mbits ≤ r.2 then
    if (f.emaxc : Int) ≤ r.1 + f.bias then ovf f s rm
    else pack f s (r.1 + f.bias).toNat (r.2 - 2 ^ f.mbits)
  else pack f s 0 r.2

end Sys2Proof.Machine
end

