-- ==== Sys2Proof/Machine/FpCore.lean ====
section
/-! DEFINITION. Sys2Proof/Machine/FpCore.lean: the block as the pure function of its inputs that 10_state.md R29 and R32 give, written over the raw `op` and `rm` bits. The step does not call it; the statements compare the two. -/

namespace Sys2Proof.Machine

/-- `fp_core_y(op, rm, a, b)` (10_state.md R32). -/
def fpCoreY (f : Fmt) (op rm : BitVec 2) (a b : BitVec f.W) : BitVec f.W :=
  if op = 0b00#2 then fpAdder f a b (decodeMode rm)
  else if op = 0b01#2 then fpAdder f a (neg f b) (decodeMode rm)
  else if op = 0b10#2 then fpMultiplier f a b (decodeMode rm)
  else fpDivider f a b (decodeMode rm)

/-- `(y, cls_a, cls_b) = fp_core_FMT(op, rm, a, b)` (10_state.md R29). -/
def fpCore (f : Fmt) (op rm : BitVec 2) (a b : BitVec f.W) : Outputs f :=
  ⟨fpCoreY f op rm a b, fpClassify f a, fpClassify f b⟩

end Sys2Proof.Machine
end

