-- ==== Sys2Proof/Safety.lean ====
section
/-! DEFINITION. Sys2Proof/Safety.lean: what a good state of the block is. It is the invariant the statements say every step and every act of the host keeps. -/

namespace Sys2Proof.Machine

/-- Exactly one of the five class bits is 1, and the quiet bit only beside the NaN bit (40_representation.md R92). -/
def classOk (c : BitVec 6) : Bool :=
  (c.extractLsb' 0 5 == 1#5 || c.extractLsb' 0 5 == 2#5 || c.extractLsb' 0 5 == 4#5 ||
    c.extractLsb' 0 5 == 8#5 || c.extractLsb' 0 5 == 16#5) && (!c.getLsbD 5 || c.getLsbD 4)

/-- The build is one of the two formats, and once the outputs have settled they are the function of the inputs (10_state.md R29), the class outputs are well formed (40_representation.md R92) and a NaN result is quiet (60_exceptions.md R215). -/
def State.Good (s : State) : Prop :=
  s.fmt.supported = true ∧
    (s.settled = true →
      s.sample = fpCore s.fmt s.op s.rm s.a s.b ∧
      classOk s.clsA = true ∧ classOk s.clsB = true ∧
      (isNaN s.fmt s.y = true → isQuiet s.fmt s.y = true))

end Sys2Proof.Machine
end

