-- ==== Sys2Proof/Certificates/Slice0/Obligations.lean ====
section
/-! DEFINITION. Sys2Proof/Certificates/Slice0/Obligations.lean: the statements about the block for the provers. `s.driven y` is the state after an evaluation, and besides the outputs it sets the model's own `settled` field (log entry 5). Each docstring names the rule of spec/ it formalises. -/

open Sys2Proof Sys2Proof.Machine

/-! ### The command word -/

/-- 30_encoding.md R60, R62, R63: the opcode map, all sixteen command words. -/
def Obligations.CommandWordsDecodeByTheOpcodeMap : Prop :=
  decodeCmd 0x0#4 = .fadd .rz ∧ decodeCmd 0x1#4 = .fsub .rz ∧ decodeCmd 0x2#4 = .fmul .rz ∧ decodeCmd 0x3#4 = .fdiv .rz ∧
  decodeCmd 0x4#4 = .fadd .rne ∧ decodeCmd 0x5#4 = .fsub .rne ∧ decodeCmd 0x6#4 = .fmul .rne ∧ decodeCmd 0x7#4 = .fdiv .rne ∧
  decodeCmd 0x8#4 = .fadd .ru ∧ decodeCmd 0x9#4 = .fsub .ru ∧ decodeCmd 0xA#4 = .fmul .ru ∧ decodeCmd 0xB#4 = .fdiv .ru ∧
  decodeCmd 0xC#4 = .fadd .rd ∧ decodeCmd 0xD#4 = .fsub .rd ∧ decodeCmd 0xE#4 = .fmul .rd ∧ decodeCmd 0xF#4 = .fdiv .rd

/-- Decoding an encoded command gives it back, every command word is the word of the command it decodes to (30_encoding.md R64: none is reserved), and a byte above 0xF is refused by name. The byte form is the model's choice (log entry 6). -/
def Obligations.DecodeAndEncodeAgreeOnCommands : Prop :=
  (∀ i rest, decode (encode i ++ rest) = .ok (i, rest)) ∧
  (∀ cmd : BitVec 4, encodeCmd (decodeCmd cmd) = cmd) ∧
  (∀ (b : BitVec 8) rest, 16 ≤ b.toNat → decode (b :: rest) = .error .notFourBits)

/-! ### The operand encoding -/

/-- 40_representation.md R80: the three fields `fp_decode` gives, in both formats and any other width, with the rule's example. -/
def Obligations.DecodeReadsTheThreeFields : Prop :=
  (∀ (f : Fmt) (x : BitVec f.W),
    (fpDecode f x).s = bit x.toNat (f.ebits + f.mbits) ∧
    (fpDecode f x).e.toNat = x.toNat / 2 ^ f.mbits % 2 ^ f.ebits ∧
    (fpDecode f x).m.toNat = x.toNat % 2 ^ f.mbits) ∧
  fpDecode binary32 0xC0490FDB#32 = ⟨true, 0x80#8, 0x490FDB#23⟩

/-- 40_representation.md R81: what `fp_encode` gives as an unsigned integer. -/
def Obligations.EncodeIsTheWeightedSumOfTheFields : Prop :=
  ∀ (f : Fmt) (v : Fields f),
    (fpEncode f v).toNat = b2n v.s * 2 ^ (f.W - 1) + v.e.toNat * 2 ^ f.mbits + v.m.toNat

/-- 40_representation.md R82: the round trip, both ways. -/
def Obligations.OperandEncodingRoundTrips : Prop :=
  ∀ f : Fmt, (∀ x : BitVec f.W, fpEncode f (fpDecode f x) = x) ∧ (∀ v : Fields f, fpDecode f (fpEncode f v) = v)

/-- 40_representation.md R84: every value is in exactly one of the five classes. -/
def Obligations.EveryValueIsInExactlyOneClass : Prop :=
  ∀ (f : Fmt) (x : BitVec f.W), f.supported = true →
    b2n (isZero f x) + b2n (isSubnormal f x) + b2n (isNormal f x) + b2n (isInf f x) + b2n (isNaN f x) = 1

/-- 40_representation.md R92: which predicate each class bit is, that the five class bits are one-hot, that the quiet bit needs the NaN bit, that the sign does not enter, and the rule's examples. -/
def Obligations.ClassOutputIsOneHotAndIgnoresTheSign : Prop :=
  (∀ (f : Fmt) (x : BitVec f.W), f.supported = true →
    (fpClassify f x).getLsbD 0 = isZero f x ∧ (fpClassify f x).getLsbD 1 = isSubnormal f x ∧
    (fpClassify f x).getLsbD 2 = isNormal f x ∧ (fpClassify f x).getLsbD 3 = isInf f x ∧
    (fpClassify f x).getLsbD 4 = isNaN f x ∧ (fpClassify f x).getLsbD 5 = isQuiet f x ∧
    classOk (fpClassify f x) = true ∧ fpClassify f (neg f x) = fpClassify f x) ∧
  fpClassify binary32 0x7FC00000#32 = 0b110000#6 ∧
  fpClassify binary32 0x80000000#32 = 0b000001#6 ∧
  fpClassify binary32 0x00000001#32 = 0b000010#6

/-- 40_representation.md R87: `quiet` sets the quiet bit and no other, makes a quiet NaN of a NaN, leaves a quiet NaN alone; the rule's examples. -/
def Obligations.QuietForcesTheQuietBitAndNothingElse : Prop :=
  (∀ (f : Fmt) (x : BitVec f.W), f.supported = true →
    (∀ i, (quiet f x).getLsbD i = (x.getLsbD i || i == f.qbit)) ∧
    (isNaN f x = true → isQuiet f (quiet f x) = true ∧ signOf f (quiet f x) = signOf f x) ∧
    (isQuiet f x = true → quiet f x = x)) ∧
  quiet binary32 0x7F800001#32 = 0x7FC00001#32 ∧ quiet binary32 0xFFC00123#32 = 0xFFC00123#32

/-- 40_representation.md R88: `neg` flips the sign bit and no other, for every value. With R90 it negates the value of a finite encoding. -/
def Obligations.NegFlipsTheSignBitAndNothingElse : Prop :=
  ∀ (f : Fmt) (x : BitVec f.W),
    (∀ i, i < f.W → (neg f x).getLsbD i = (x.getLsbD i ^^ (i == f.W - 1))) ∧
    value? f (neg f x) = (value? f x).map fun v => -v

/-- 40_representation.md R89: comparing exponent then mantissa is comparing `mag`, and for two non-NaN values `mag` orders the magnitudes, an infinity above every finite value. -/
def Obligations.MagnitudeOrderIsTheOrderOfAbsoluteValues : Prop :=
  ∀ (f : Fmt) (a b : BitVec f.W), f.supported = true →
    (mag f b < mag f a ↔ expOf f b < expOf f a ∨ (expOf f b = expOf f a ∧ manOf f b < manOf f a)) ∧
    (∀ va vb, value? f a = some va → value? f b = some vb → (mag f b < mag f a ↔ |vb| < |va|)) ∧
    (∀ vb, isInf f a = true → value? f b = some vb → mag f b < mag f a) ∧
    (isInf f a = true → isInf f b = true → mag f a = mag f b)

/-- 40_representation.md R91 (and R86 for `CNAN`): the named constants' bit patterns in both formats. -/
def Obligations.NamedConstantsHaveTheirBitPatterns : Prop :=
  (zero binary16 false = 0x0000#16 ∧ zero binary16 true = 0x8000#16 ∧ mins binary16 = 0x0001#16 ∧
    maxs binary16 = 0x03FF#16 ∧ minn binary16 = 0x0400#16 ∧ one binary16 = 0x3C00#16 ∧
    maxf binary16 false = 0x7BFF#16 ∧ maxf binary16 true = 0xFBFF#16 ∧
    inf binary16 false = 0x7C00#16 ∧ inf binary16 true = 0xFC00#16 ∧ cnan binary16 = 0x7E00#16) ∧
  (zero binary32 false = 0x00000000#32 ∧ zero binary32 true = 0x80000000#32 ∧ mins binary32 = 0x00000001#32 ∧
    maxs binary32 = 0x007FFFFF#32 ∧ minn binary32 = 0x00800000#32 ∧ one binary32 = 0x3F800000#32 ∧
    maxf binary32 false = 0x7F7FFFFF#32 ∧ maxf binary32 true = 0xFF7FFFFF#32 ∧
    inf binary32 false = 0x7F800000#32 ∧ inf binary32 true = 0xFF800000#32 ∧ cnan binary32 = 0x7FC00000#32)

/-! ### Normalizer, rounder, resolver -/

/-- 41_datapath.md R101: the normalizer keeps the value, sets the implicit bit, stays in its exponent range, and shifts a subnormal `M - floor(log2(m))` times. -/
def Obligations.NormalizerKeepsTheValueAndSetsTheImplicitBit : Prop :=
  ∀ (f : Fmt) (x : BitVec f.W) (v : ℚ), f.supported = true → value? f x = some v → v ≠ 0 →
    v = signFactor (signOf f x) * (fpNormalize f (expOf f x) (manOf f x)).2 *
      (2 : ℚ) ^ ((fpNormalize f (expOf f x) (manOf f x)).1 - f.bias - f.mbits) ∧
    2 ^ f.mbits ≤ (fpNormalize f (expOf f x) (manOf f x)).2 ∧
    (fpNormalize f (expOf f x) (manOf f x)).2 < 2 ^ (f.mbits + 1) ∧
    1 - (f.mbits : Int) ≤ (fpNormalize f (expOf f x) (manOf f x)).1 ∧
    (fpNormalize f (expOf f x) (manOf f x)).1 ≤ (f.emaxc : Int) - 1 ∧
    (isSubnormal f x = true → ∃ k : Nat, k + Nat.log 2 (manOf f x) = f.mbits ∧ 1 ≤ k ∧ k ≤ f.mbits ∧
      (fpNormalize f (expOf f x) (manOf f x)).1 = 1 - (k : Int))

/-- 41_datapath.md R103, R104: the increment decision, mode by mode, over every `(s, rb, sb, lsb)` counted in binary with `s` the high bit (the table of 95_test_vectors.md section 1.3), and the sum the rounder returns. -/
def Obligations.RoundingIncrementFollowsTheTable : Prop :=
  (∀ sig rm rb sb s, fpRound sig rm rb sb s = sig + b2n (inc rm rb sb s (bit sig 0))) ∧
  (∀ n : BitVec 4,
    inc .rz (n.getLsbD 2) (n.getLsbD 1) (n.getLsbD 3) (n.getLsbD 0) = false ∧
    inc .rne (n.getLsbD 2) (n.getLsbD 1) (n.getLsbD 3) (n.getLsbD 0) = (0b1110000011100000#16).getLsbD n.toNat ∧
    inc .ru (n.getLsbD 2) (n.getLsbD 1) (n.getLsbD 3) (n.getLsbD 0) = (0b0000000011111100#16).getLsbD n.toNat ∧
    inc .rd (n.getLsbD 2) (n.getLsbD 1) (n.getLsbD 3) (n.getLsbD 0) = (0b1111110000000000#16).getLsbD n.toNat)

/-- 41_datapath.md R105: what the decision means when the round and sticky bits are those of the discarded fraction `q`. -/
def Obligations.RounderRoundsTheDiscardedFraction : Prop :=
  ∀ (t : Nat) (q : ℚ) (s rb sb : Bool), 0 ≤ q → q < 1 →
    (rb = true ↔ 1 / 2 ≤ q) → (sb = true ↔ q ≠ 0 ∧ q ≠ 1 / 2) →
    |(fpRound t .rne rb sb s : ℚ) - (t + q)| ≤ 1 / 2 ∧
    (q = 1 / 2 → fpRound t .rne rb sb s % 2 = 0) ∧
    fpRound t .rz rb sb s = t ∧
    (fpRound t .ru rb sb false : Int) = ⌈(t : ℚ) + q⌉ ∧ fpRound t .ru rb sb true = t ∧
    (fpRound t .rd rb sb true : Int) = ⌈(t : ℚ) + q⌉ ∧ fpRound t .rd rb sb false = t

/-- 41_datapath.md R106: a round that reaches `2^(M+1)` is shifted right by one with the exponent raised by one, any other is left alone, and the value is kept. -/
def Obligations.PostRoundCarryKeepsTheValue : Prop :=
  ∀ (f : Fmt) (en : Int) (sig : Nat),
    carry f en (2 ^ (f.mbits + 1)) = (en + 1, 2 ^ f.mbits) ∧
    (sig ≠ 2 ^ (f.mbits + 1) → carry f en sig = (en, sig)) ∧
    ((carry f en sig).2 : ℚ) * (2 : ℚ) ^ (carry f en sig).1 = sig * (2 : ℚ) ^ en

/-- 41_datapath.md R108: from `e = EMAXC` up the resolver gives the overflow result of the table. -/
def Obligations.OverflowResultFollowsModeAndSign : Prop :=
  ∀ (f : Fmt) (e : Int) (sig xb : Nat) (sin : Bool), (f.emaxc : Int) ≤ e →
    fpResolve f false e sig xb sin .rz = maxf f false ∧ fpResolve f false e sig xb sin .rne = inf f false ∧
    fpResolve f false e sig xb sin .ru = inf f false ∧ fpResolve f false e sig xb sin .rd = maxf f false ∧
    fpResolve f true e sig xb sin .rz = maxf f true ∧ fpResolve f true e sig xb sin .rne = inf f true ∧
    fpResolve f true e sig xb sin .ru = maxf f true ∧ fpResolve f true e sig xb sin .rd = inf f true

/-- 41_datapath.md R107 to R111 against R120: under the resolver's preconditions its result is the exact rounding of the magnitude `(sig + q) * 2^(e - BIAS - M - xb)` it stands for, in every branch. -/
def Obligations.ResolverIsTheExactRounding : Prop :=
  ∀ (f : Fmt) (s : Bool) (e : Int) (sig xb : Nat) (sin : Bool) (rm : RoundingMode) (q : ℚ), f.supported = true →
    xb ≤ 1 → 2 ^ (f.mbits + xb) ≤ sig → sig < 2 ^ (f.mbits + xb + 1) →
    (0 < e → xb = 0 ∧ sin = false) → 0 ≤ q → q < 1 → (0 < q ↔ sin = true) →
    fpResolve f s e sig xb sin rm =
      roundToFormat f s ((sig + q) * (2 : ℚ) ^ (e - f.bias - f.mbits - xb)) rm

/-! ### The exact rounding function -/

/-- 41_datapath.md R122, first point: a representable magnitude is returned exactly, in every mode. -/
def Obligations.ExactRoundingFixesRepresentableValues : Prop :=
  ∀ (f : Fmt) (x : BitVec f.W) (v : ℚ) (rm : RoundingMode), f.supported = true → value? f x = some v → v ≠ 0 →
    roundToFormat f (signOf f x) |v| rm = x

/-- 41_datapath.md R120, R122: under RZ the result is the largest finite magnitude not above the exact one. -/
def Obligations.RoundTowardZeroGivesTheLargestMagnitudeBelow : Prop :=
  ∀ (f : Fmt) (s : Bool) (q : ℚ), f.supported = true → 0 < q →
    ∃ v, value? f (roundToFormat f s q .rz) = some v ∧ |v| ≤ q ∧
      ∀ x w, value? f x = some w → |w| ≤ q → |w| ≤ |v|

/-- 41_datapath.md R120, R105: below the overflow threshold RNE gives a nearest finite magnitude, and at a tie the one whose mantissa is even. -/
def Obligations.RoundToNearestGivesTheNearestMagnitude : Prop :=
  ∀ (f : Fmt) (s : Bool) (q : ℚ), f.supported = true → 0 < q →
    q < (2 ^ (f.mbits + 2) - 1 : ℚ) * (2 : ℚ) ^ ((f.emaxc : Int) - f.bias - f.mbits - 2) →
    ∃ v, value? f (roundToFormat f s q .rne) = some v ∧
      ∀ x w, value? f x = some w → signOf f x = s →
        |q - (|v|)| ≤ |q - (|w|)| ∧
        (|q - (|v|)| = |q - (|w|)| → x ≠ roundToFormat f s q .rne → manOf f (roundToFormat f s q .rne) % 2 = 0)

/-- 41_datapath.md R120: RU of a positive and RD of a negative exact result give the least magnitude not below it, or the infinity when there is none. -/
def Obligations.RoundAwayGivesTheLeastMagnitudeAbove : Prop :=
  ∀ (f : Fmt) (q : ℚ), f.supported = true → 0 < q →
    roundToFormat f true q .rd = neg f (roundToFormat f false q .ru) ∧
    ((roundToFormat f false q .ru = inf f false ∧ ∀ x w, value? f x = some w → |w| < q) ∨
      ∃ v, value? f (roundToFormat f false q .ru) = some v ∧ q ≤ v ∧ ∀ x w, value? f x = some w → q ≤ |w| → v ≤ |w|)

/-- 41_datapath.md R122, third and fourth points: exchanging the sign mirrors the directed modes, and every rounded result, a zero included, carries the sign it was given and is no NaN. -/
def Obligations.ExactRoundingMirrorsDirectedModesAndKeepsTheSign : Prop :=
  ∀ (f : Fmt) (q : ℚ), f.supported = true → 0 < q →
    roundToFormat f true q .ru = neg f (roundToFormat f false q .rd) ∧
    roundToFormat f true q .rd = neg f (roundToFormat f false q .ru) ∧
    ∀ s rm, signOf f (roundToFormat f s q rm) = s ∧ isNaN f (roundToFormat f s q rm) = false ∧
      (isZero f (roundToFormat f s q rm) = true → roundToFormat f s q rm = zero f s)

/-- 41_datapath.md R122, last point: overflow under RNE happens exactly from 65520 up in binary16 and from `2^128 - 2^103` up in binary32. -/
def Obligations.NearestOverflowsExactlyFromHalfAnUlpAboveTheLargest : Prop :=
  ∀ (s : Bool) (q : ℚ), 0 < q →
    (roundToFormat binary16 s q .rne = inf binary16 s ↔ 65520 ≤ q) ∧
    (roundToFormat binary32 s q .rne = inf binary32 s ↔ 2 ^ 128 - 2 ^ 103 ≤ q)

/-! ### FADD and FSUB -/

/-- 42_add_sub.md R141, 43_mul.md R171, 44_div.md R192: the first NaN operand is returned quieted, in every mode and whatever the other operand. -/
def Obligations.NanOperandIsReturnedQuieted : Prop :=
  ∀ (s : State) (rm : RoundingMode), s.fmt.supported = true →
    (isNaN s.fmt s.a = true →
      exec (.fadd rm) s = .next (s.driven (quiet s.fmt s.a)) ∧
      exec (.fmul rm) s = .next (s.driven (quiet s.fmt s.a)) ∧
      exec (.fdiv rm) s = .next (s.driven (quiet s.fmt s.a))) ∧
    (isNaN s.fmt s.a = false → isNaN s.fmt s.b = true →
      exec (.fadd rm) s = .next (s.driven (quiet s.fmt s.b)) ∧
      exec (.fmul rm) s = .next (s.driven (quiet s.fmt s.b)) ∧
      exec (.fdiv rm) s = .next (s.driven (quiet s.fmt s.b)))

/-- 42_add_sub.md R142, R143: FADD of infinities. -/
def Obligations.FaddOfInfinities : Prop :=
  ∀ (s : State) (rm : RoundingMode), s.fmt.supported = true →
    (isInf s.fmt s.a = true → isInf s.fmt s.b = true → signOf s.fmt s.a ≠ signOf s.fmt s.b →
      exec (.fadd rm) s = .next (s.driven (cnan s.fmt))) ∧
    (isInf s.fmt s.a = true → isInf s.fmt s.b = true → signOf s.fmt s.a = signOf s.fmt s.b →
      exec (.fadd rm) s = .next (s.driven s.a)) ∧
    (isInf s.fmt s.a = true → isFinite s.fmt s.b = true → exec (.fadd rm) s = .next (s.driven s.a)) ∧
    (isFinite s.fmt s.a = true → isInf s.fmt s.b = true → exec (.fadd rm) s = .next (s.driven s.b))

/-- 42_add_sub.md R145: FADD with a zero operand: the other operand bit for bit, and for two zeros the sign of the table. -/
def Obligations.FaddWithAZeroOperand : Prop :=
  ∀ (s : State) (rm : RoundingMode), s.fmt.supported = true →
    (isFinite s.fmt s.a = true → isZero s.fmt s.a = false → isZero s.fmt s.b = true →
      exec (.fadd rm) s = .next (s.driven s.a)) ∧
    (isZero s.fmt s.a = true → isFinite s.fmt s.b = true → isZero s.fmt s.b = false →
      exec (.fadd rm) s = .next (s.driven s.b)) ∧
    (isZero s.fmt s.a = true → isZero s.fmt s.b = true → signOf s.fmt s.a = signOf s.fmt s.b →
      exec (.fadd rm) s = .next (s.driven (zero s.fmt (signOf s.fmt s.a)))) ∧
    (isZero s.fmt s.a = true → isZero s.fmt s.b = true → signOf s.fmt s.a ≠ signOf s.fmt s.b →
      exec (.fadd rm) s = .next (s.driven (zero s.fmt (rm == .rd))))

/-- 42_add_sub.md R149: an exact zero sum of nonzero operands is -0 under RD and +0 otherwise. -/
def Obligations.FaddExactZeroSignFollowsTheMode : Prop :=
  ∀ (s : State) (rm : RoundingMode) (va vb : ℚ), s.fmt.supported = true →
    value? s.fmt s.a = some va → value? s.fmt s.b = some vb → va ≠ 0 → va + vb = 0 →
    signOf s.fmt s.a ≠ signOf s.fmt s.b ∧ mag s.fmt s.a = mag s.fmt s.b ∧
    exec (.fadd rm) s = .next (s.driven (zero s.fmt (rm == .rd)))

/-- 41_datapath.md R121 for FADD: the single correct rounding of the exact sum. -/
def Obligations.FaddIsTheExactRoundingOfTheSum : Prop :=
  ∀ (s : State) (rm : RoundingMode) (va vb : ℚ), s.fmt.supported = true →
    value? s.fmt s.a = some va → value? s.fmt s.b = some vb → va ≠ 0 → vb ≠ 0 → va + vb ≠ 0 →
    exec (.fadd rm) s = .next (s.driven (roundToFormat s.fmt (decide (va + vb < 0)) |va + vb| rm))

/-- 41_datapath.md R121 for FSUB: the single correct rounding of the exact difference, with R149's zero when it vanishes. -/
def Obligations.FsubIsTheExactRoundingOfTheDifference : Prop :=
  ∀ (s : State) (rm : RoundingMode) (va vb : ℚ), s.fmt.supported = true →
    value? s.fmt s.a = some va → value? s.fmt s.b = some vb → va ≠ 0 → vb ≠ 0 →
    exec (.fsub rm) s = .next (s.driven
      (if va - vb = 0 then zero s.fmt (rm == .rd)
       else roundToFormat s.fmt (decide (va - vb < 0)) |va - vb| rm))

/-- 42_add_sub.md R153: FSUB is FADD of `a` and `neg(b)`, for every `b`, and its command word is `rm * 4 + 1`. -/
def Obligations.FsubIsFaddOfTheNegatedOperand : Prop :=
  ∀ (s : State) (rm : RoundingMode), s.fmt.supported = true →
    (∃ y, exec (.fsub rm) s = .next (s.driven y) ∧
      exec (.fadd rm) (s.present s.op s.rm s.a (neg s.fmt s.b)) =
        .next ((s.present s.op s.rm s.a (neg s.fmt s.b)).driven y)) ∧
    (encodeCmd (.fsub rm)).toNat = (encodeMode rm).toNat * 4 + 1

/-- 42_add_sub.md R155, R154: `FSUB x, x` for a finite, an infinite and a NaN `x`. -/
def Obligations.SelfSubtraction : Prop :=
  ∀ (s : State) (rm : RoundingMode), s.fmt.supported = true → s.a = s.b →
    (isFinite s.fmt s.a = true → exec (.fsub rm) s = .next (s.driven (zero s.fmt (rm == .rd)))) ∧
    (isInf s.fmt s.a = true → exec (.fsub rm) s = .next (s.driven (cnan s.fmt))) ∧
    (isNaN s.fmt s.a = true → exec (.fsub rm) s = .next (s.driven (quiet s.fmt s.a)))

/-- 42_add_sub.md R155: `FADD a, +0` for every `a`. -/
def Obligations.AdditiveIdentity : Prop :=
  ∀ (s : State) (rm : RoundingMode), s.fmt.supported = true → s.b = zero s.fmt false →
    (isNaN s.fmt s.a = false → s.a ≠ zero s.fmt true → exec (.fadd rm) s = .next (s.driven s.a)) ∧
    (s.a = zero s.fmt true → exec (.fadd rm) s = .next (s.driven (zero s.fmt (rm == .rd)))) ∧
    (isNaN s.fmt s.a = true → exec (.fadd rm) s = .next (s.driven (quiet s.fmt s.a)))

/-- 42_add_sub.md R155, 43_mul.md R179: FADD and FMUL give the same result with the operands exchanged, unless both are NaNs. -/
def Obligations.FaddAndFmulCommuteUnlessBothAreNan : Prop :=
  ∀ (s : State) (rm : RoundingMode), s.fmt.supported = true →
    ¬(isNaN s.fmt s.a = true ∧ isNaN s.fmt s.b = true) →
    (∃ y, exec (.fadd rm) s = .next (s.driven y) ∧
      exec (.fadd rm) (s.present s.op s.rm s.b s.a) = .next ((s.present s.op s.rm s.b s.a).driven y)) ∧
    (∃ y, exec (.fmul rm) s = .next (s.driven y) ∧
      exec (.fmul rm) (s.present s.op s.rm s.b s.a) = .next ((s.present s.op s.rm s.b s.a).driven y))

/-- 42_add_sub.md R152: the sum of two subnormals is exact in every mode. -/
def Obligations.SumOfSubnormalsIsExact : Prop :=
  ∀ (s : State) (rm : RoundingMode) (va vb : ℚ), s.fmt.supported = true →
    isSubnormal s.fmt s.a = true → isSubnormal s.fmt s.b = true →
    value? s.fmt s.a = some va → value? s.fmt s.b = some vb →
    ∃ y, exec (.fadd rm) s = .next (s.driven y) ∧ value? s.fmt y = some (va + vb)

/-- 42_add_sub.md R156: the sign of a nonzero exact sum's result is the sign of the operand of larger magnitude. -/
def Obligations.SumHasTheSignOfTheLargerOperand : Prop :=
  ∀ (s : State) (rm : RoundingMode) (va vb : ℚ), s.fmt.supported = true →
    value? s.fmt s.a = some va → value? s.fmt s.b = some vb → va ≠ 0 → vb ≠ 0 → va + vb ≠ 0 →
    ∃ y, exec (.fadd rm) s = .next (s.driven y) ∧
      (mag s.fmt s.b ≤ mag s.fmt s.a → signOf s.fmt y = signOf s.fmt s.a) ∧
      (mag s.fmt s.a < mag s.fmt s.b → signOf s.fmt y = signOf s.fmt s.b)

/-- 42_add_sub.md R147: on the far path the parts stand for the exact sum: significand, exponent, round bit, and a tail that is neither zero nor a half. -/
def Obligations.FarPathPartsStandForTheExactSum : Prop :=
  ∀ (f : Fmt) (sa sb d : Nat) (ea : Int) (same : Bool),
    2 ^ f.mbits ≤ sa → sa < 2 ^ (f.mbits + 1) → 2 ^ f.mbits ≤ sb → sb < 2 ^ (f.mbits + 1) → f.mbits + 3 ≤ d →
    2 ^ f.mbits ≤ (farParts f same sa ea).1 ∧ (farParts f same sa ea).1 < 2 ^ (f.mbits + 1) ∧
    ∃ tail : ℚ, 0 < tail ∧ tail < 1 ∧ tail ≠ 1 / 2 ∧ ((farParts f same sa ea).2.2 = true ↔ 1 / 2 < tail) ∧
      ((farParts f same sa ea).1 + tail) * (2 : ℚ) ^ (farParts f same sa ea).2.1 =
        ((sa : ℚ) + (if same then 1 else -1) * (sb / 2 ^ d)) * (2 : ℚ) ^ ea

/-- 42_add_sub.md R148: on the near path no bit is lost, the difference is not negative, and the sum fits `2M + 5` bits. -/
def Obligations.NearPathSumIsExactAndFitsItsWidth : Prop :=
  ∀ (f : Fmt) (sa sb d : Nat) (same : Bool),
    2 ^ f.mbits ≤ sa → sa < 2 ^ (f.mbits + 1) → 2 ^ f.mbits ≤ sb → sb < 2 ^ (f.mbits + 1) → d ≤ f.mbits + 2 →
    (d = 0 → sb ≤ sa) →
    (nearSum f same sa sb d : ℚ) = ((sa : ℚ) + (if same then 1 else -1) * (sb / 2 ^ d)) * 2 ^ f.guard ∧
    nearSum f same sa sb d < 2 ^ (2 * f.mbits + 5)

/-- 42_add_sub.md R150, 70_reset_and_hazards.md R234: at most `M + 1` left shifts bring a nonzero near-path sum's leading bit to the implicit-bit position, and they keep its value. -/
def Obligations.LeftShiftsReachTheImplicitBitInTime : Prop :=
  ∀ (f : Fmt) (sa sb d : Nat) (same : Bool) (e : Int),
    2 ^ f.mbits ≤ sa → sa < 2 ^ (f.mbits + 1) → 2 ^ f.mbits ≤ sb → sb < 2 ^ (f.mbits + 1) → d ≤ f.mbits + 2 →
    (d = 0 → sb ≤ sa) → nearSum f same sa sb d ≠ 0 →
    nearSum f same sa sb d < 2 ^ (f.mbits + f.guard + 1) →
    2 ^ (f.mbits + f.guard) ≤ (leftShifts f (f.mbits + 1) (nearSum f same sa sb d) e).1 ∧
    (leftShifts f (f.mbits + 1) (nearSum f same sa sb d) e).1 < 2 ^ (f.mbits + f.guard + 1) ∧
    ((leftShifts f (f.mbits + 1) (nearSum f same sa sb d) e).1 : ℚ) *
        (2 : ℚ) ^ (leftShifts f (f.mbits + 1) (nearSum f same sa sb d) e).2 =
      nearSum f same sa sb d * (2 : ℚ) ^ e

/-! ### FMUL -/

/-- 43_mul.md R172, R173, R174: FMUL's invalid, zero and infinite cases; `s` is the XOR of the signs. -/
def Obligations.FmulSpecialCases : Prop :=
  ∀ (s : State) (rm : RoundingMode), s.fmt.supported = true →
    (isZero s.fmt s.a = true → isInf s.fmt s.b = true → exec (.fmul rm) s = .next (s.driven (cnan s.fmt))) ∧
    (isInf s.fmt s.a = true → isZero s.fmt s.b = true → exec (.fmul rm) s = .next (s.driven (cnan s.fmt))) ∧
    (isZero s.fmt s.a = true → isFinite s.fmt s.b = true →
      exec (.fmul rm) s = .next (s.driven (zero s.fmt (signOf s.fmt s.a ^^ signOf s.fmt s.b)))) ∧
    (isFinite s.fmt s.a = true → isZero s.fmt s.b = true →
      exec (.fmul rm) s = .next (s.driven (zero s.fmt (signOf s.fmt s.a ^^ signOf s.fmt s.b)))) ∧
    (isInf s.fmt s.a = true → isZero s.fmt s.b = false → isNaN s.fmt s.b = false →
      exec (.fmul rm) s = .next (s.driven (inf s.fmt (signOf s.fmt s.a ^^ signOf s.fmt s.b)))) ∧
    (isZero s.fmt s.a = false → isNaN s.fmt s.a = false → isInf s.fmt s.b = true →
      exec (.fmul rm) s = .next (s.driven (inf s.fmt (signOf s.fmt s.a ^^ signOf s.fmt s.b))))

/-- 41_datapath.md R121 for FMUL: the single correct rounding of the exact product. -/
def Obligations.FmulIsTheExactRoundingOfTheProduct : Prop :=
  ∀ (s : State) (rm : RoundingMode) (va vb : ℚ), s.fmt.supported = true →
    value? s.fmt s.a = some va → value? s.fmt s.b = some vb → va ≠ 0 → vb ≠ 0 →
    exec (.fmul rm) s = .next (s.driven (roundToFormat s.fmt (decide (va * vb < 0)) |va * vb| rm))

/-! ### FDIV -/

/-- 44_div.md R191, R193, R194, R195: FDIV's special cases; `s` is the XOR of the signs. No case traps. -/
def Obligations.FdivSpecialCases : Prop :=
  ∀ (s : State) (rm : RoundingMode), s.fmt.supported = true →
    (isZero s.fmt s.a = true → isZero s.fmt s.b = true → exec (.fdiv rm) s = .next (s.driven (cnan s.fmt))) ∧
    (isInf s.fmt s.a = true → isInf s.fmt s.b = true → exec (.fdiv rm) s = .next (s.driven (cnan s.fmt))) ∧
    (isNaN s.fmt s.a = false → isZero s.fmt s.a = false → isZero s.fmt s.b = true →
      exec (.fdiv rm) s = .next (s.driven (inf s.fmt (signOf s.fmt s.a ^^ signOf s.fmt s.b)))) ∧
    (isFinite s.fmt s.a = true → isInf s.fmt s.b = true →
      exec (.fdiv rm) s = .next (s.driven (zero s.fmt (signOf s.fmt s.a ^^ signOf s.fmt s.b)))) ∧
    (isZero s.fmt s.a = true → isFinite s.fmt s.b = true → isZero s.fmt s.b = false →
      exec (.fdiv rm) s = .next (s.driven (zero s.fmt (signOf s.fmt s.a ^^ signOf s.fmt s.b)))) ∧
    (isInf s.fmt s.a = true → isFinite s.fmt s.b = true → isZero s.fmt s.b = false →
      exec (.fdiv rm) s = .next (s.driven (inf s.fmt (signOf s.fmt s.a ^^ signOf s.fmt s.b))))

/-- 44_div.md R196, R197: the pre-shift keeps the dividend and brings the ratio into [1, 2), and the integer division then gives a quotient of `P + 1` bits that, with the remainder, is the exact ratio. -/
def Obligations.DivisionStepsAreExact : Prop :=
  ∀ (f : Fmt) (sa sb : Nat) (ea : Int),
    2 ^ f.mbits ≤ sa → sa < 2 ^ (f.mbits + 1) → 2 ^ f.mbits ≤ sb → sb < 2 ^ (f.mbits + 1) →
    sb ≤ (preShift sa sb ea).1 ∧ (preShift sa sb ea).1 < 2 * sb ∧
    ((preShift sa sb ea).1 : ℚ) * (2 : ℚ) ^ (preShift sa sb ea).2 = sa * (2 : ℚ) ^ ea ∧
    2 ^ (f.mbits + 1) ≤ (preShift sa sb ea).1 * 2 ^ (f.mbits + 1) / sb ∧
    (preShift sa sb ea).1 * 2 ^ (f.mbits + 1) / sb < 2 ^ (f.mbits + 2) ∧
    (((preShift sa sb ea).1 * 2 ^ (f.mbits + 1) / sb : ℕ) : ℚ) +
        (((preShift sa sb ea).1 * 2 ^ (f.mbits + 1) % sb : ℕ) : ℚ) / sb =
      (preShift sa sb ea).1 * 2 ^ (f.mbits + 1) / sb

/-- 41_datapath.md R121 for FDIV: the single correct rounding of the exact quotient. -/
def Obligations.FdivIsTheExactRoundingOfTheQuotient : Prop :=
  ∀ (s : State) (rm : RoundingMode) (va vb : ℚ), s.fmt.supported = true →
    value? s.fmt s.a = some va → value? s.fmt s.b = some vb → va ≠ 0 → vb ≠ 0 →
    exec (.fdiv rm) s = .next (s.driven (roundToFormat s.fmt (decide (va / vb < 0)) |va / vb| rm))

/-! ### All four commands -/

/-- 60_exceptions.md R210, R217, 30_encoding.md R64: in both formats every command completes for every operand pattern in every mode, with its component's result on `y`. No input faults. -/
def Obligations.EveryCommandCompletesOnEveryInput : Prop :=
  ∀ (s : State) (rm : RoundingMode), s.fmt.supported = true →
    exec (.fadd rm) s = .next (s.driven (fpAdder s.fmt s.a s.b rm)) ∧
    exec (.fsub rm) s = .next (s.driven (fpSub s.fmt s.a s.b rm)) ∧
    exec (.fmul rm) s = .next (s.driven (fpMultiplier s.fmt s.a s.b rm)) ∧
    exec (.fdiv rm) s = .next (s.driven (fpDivider s.fmt s.a s.b rm))

/-- 60_exceptions.md R215: every NaN on `y` is quiet, and is `CNAN`, a NaN operand quieted, or in FSUB the negated `b` quieted. -/
def Obligations.EveryNanResultIsQuietAndOfOneOfThreeKinds : Prop :=
  ∀ (s : State) (rm : RoundingMode), s.fmt.supported = true →
    (∃ y, exec (.fadd rm) s = .next (s.driven y) ∧ (isNaN s.fmt y = true → isQuiet s.fmt y = true ∧
      (y = cnan s.fmt ∨ (isNaN s.fmt s.a = true ∧ y = quiet s.fmt s.a) ∨ (isNaN s.fmt s.b = true ∧ y = quiet s.fmt s.b)))) ∧
    (∃ y, exec (.fsub rm) s = .next (s.driven y) ∧ (isNaN s.fmt y = true → isQuiet s.fmt y = true ∧
      (y = cnan s.fmt ∨ (isNaN s.fmt s.a = true ∧ y = quiet s.fmt s.a) ∨
        (isNaN s.fmt s.b = true ∧ y = quiet s.fmt (neg s.fmt s.b))))) ∧
    (∃ y, exec (.fmul rm) s = .next (s.driven y) ∧ (isNaN s.fmt y = true → isQuiet s.fmt y = true ∧
      (y = cnan s.fmt ∨ (isNaN s.fmt s.a = true ∧ y = quiet s.fmt s.a) ∨ (isNaN s.fmt s.b = true ∧ y = quiet s.fmt s.b)))) ∧
    (∃ y, exec (.fdiv rm) s = .next (s.driven y) ∧ (isNaN s.fmt y = true → isQuiet s.fmt y = true ∧
      (y = cnan s.fmt ∨ (isNaN s.fmt s.a = true ∧ y = quiet s.fmt s.a) ∨ (isNaN s.fmt s.b = true ∧ y = quiet s.fmt s.b))))

/-- 60_exceptions.md R211: with no NaN operand the result is a NaN exactly in the invalid cases of the table, and it is then `CNAN`. (A NaN operand that is itself `CNAN` is propagated by R214, so the bit pattern alone does not tell; log entry 13.) -/
def Obligations.InvalidOperationsAndNoOthersGiveTheCanonicalNan : Prop :=
  ∀ (s : State) (rm : RoundingMode), s.fmt.supported = true → isNaN s.fmt s.a = false → isNaN s.fmt s.b = false →
    (∃ y, exec (.fadd rm) s = .next (s.driven y) ∧ (isNaN s.fmt y = true → y = cnan s.fmt) ∧
      (y = cnan s.fmt ↔ isInf s.fmt s.a = true ∧ isInf s.fmt s.b = true ∧ signOf s.fmt s.a ≠ signOf s.fmt s.b)) ∧
    (∃ y, exec (.fsub rm) s = .next (s.driven y) ∧ (isNaN s.fmt y = true → y = cnan s.fmt) ∧
      (y = cnan s.fmt ↔ isInf s.fmt s.a = true ∧ isInf s.fmt s.b = true ∧ signOf s.fmt s.a = signOf s.fmt s.b)) ∧
    (∃ y, exec (.fmul rm) s = .next (s.driven y) ∧ (isNaN s.fmt y = true → y = cnan s.fmt) ∧
      (y = cnan s.fmt ↔ (isZero s.fmt s.a = true ∧ isInf s.fmt s.b = true) ∨ (isInf s.fmt s.a = true ∧ isZero s.fmt s.b = true))) ∧
    (∃ y, exec (.fdiv rm) s = .next (s.driven y) ∧ (isNaN s.fmt y = true → y = cnan s.fmt) ∧
      (y = cnan s.fmt ↔ (isZero s.fmt s.a = true ∧ isZero s.fmt s.b = true) ∨ (isInf s.fmt s.a = true ∧ isInf s.fmt s.b = true)))

/-- 41_datapath.md R122, 30_encoding.md R64: a nonzero exact result that the format can hold is returned exactly, and the same in every mode. -/
def Obligations.RepresentableResultsAreExactInEveryMode : Prop :=
  ∀ (s : State) (va vb w : ℚ) (x : BitVec s.fmt.W), s.fmt.supported = true →
    value? s.fmt s.a = some va → value? s.fmt s.b = some vb → va ≠ 0 → vb ≠ 0 →
    value? s.fmt x = some w → w ≠ 0 →
    (va + vb = w → ∀ rm, exec (.fadd rm) s = .next (s.driven x)) ∧
    (va - vb = w → ∀ rm, exec (.fsub rm) s = .next (s.driven x)) ∧
    (va * vb = w → ∀ rm, exec (.fmul rm) s = .next (s.driven x)) ∧
    (va / vb = w → ∀ rm, exec (.fdiv rm) s = .next (s.driven x))

/-- 00_scope.md R3, 10_state.md R28: the legal values of `FMT` are (5, 10) and (8, 23), and a build with any other pair refuses every command by name. -/
def Obligations.OtherFormatsAreRefused : Prop :=
  (∀ e m, (Fmt.mk e m).supported = true ↔ (e = 5 ∧ m = 10) ∨ (e = 8 ∧ m = 23)) ∧
  ∀ (s : State), s.fmt.supported = false →
    (∀ i, exec i s = .refused (.unsupportedFormat s.fmt.ebits s.fmt.mbits)) ∧
    step s = .refused (.unsupportedFormat s.fmt.ebits s.fmt.mbits)

/-! ### The step and the host -/

/-- 10_state.md R29, R32: one step puts on the outputs the function `fp_core` of the inputs, and every input state has it. That one step is one evaluation (log entry 4) and that it sets `settled` (log entry 5) are the model's choices, not the spec's. -/
def Obligations.StepPutsOutTheFunctionOfTheInputs : Prop :=
  ∀ s : State, s.fmt.supported = true →
    step s = .next { s with
      y := (fpCore s.fmt s.op s.rm s.a s.b).y
      clsA := (fpCore s.fmt s.op s.rm s.a s.b).clsA
      clsB := (fpCore s.fmt s.op s.rm s.a s.b).clsB
      settled := true }

/-- 30_encoding.md R60, 10_state.md R22: the step runs the command on the ports, and a command word presented by the host is decoded to the command the step then runs, with `FMT` and the operands as they were. -/
def Obligations.StepRunsTheDecodedCommand : Prop :=
  (∀ s : State, step s = exec (decodeCmd (cmdOf s.op s.rm)) s) ∧
  (∀ (s : State) nbits w i, decodeTableWord nbits w = some i →
    step (s.withFetchWord nbits w) = exec i (s.withFetchWord nbits w) ∧
    ∃ op rm, cmdOf op rm = encodeCmd i ∧ s.withFetchWord nbits w = s.present op rm s.a s.b)

/-- 20_memory.md R45: an evaluation changes nothing but the outputs (the settled bit is the model's own, log entry 5), and evaluating again with the same inputs changes nothing at all. It is the frame of all four commands. -/
def Obligations.EvaluationChangesOnlyTheOutputsAndIsIdempotent : Prop :=
  (∀ (s t : State) (i : Instr), exec i s = .next t →
    (∃ y ca cb, t = { s with y := y, clsA := ca, clsB := cb, settled := true }) ∧ exec i t = .next t) ∧
  (∀ s t : State, step s = .next t → step t = .next t)

/-- 20_memory.md R47, 70_reset_and_hazards.md R235: a step does not depend on what an earlier command left on the outputs. -/
def Obligations.StepDoesNotDependOnEarlierCommands : Prop :=
  ∀ (s : State) (y : BitVec s.fmt.W) (ca cb : BitVec 6) (st : Bool),
    step { s with y := y, clsA := ca, clsB := cb, settled := st } = step s

/-- 10_state.md R31: the class outputs are the classes of the operands, whatever the command and the mode. -/
def Obligations.ClassOutputsDoNotDependOnTheCommand : Prop :=
  ∀ (s : State) (i j : Instr), s.fmt.supported = true →
    ∃ t u, exec i s = .next t ∧ exec j s = .next u ∧
      t.clsA = fpClassify s.fmt s.a ∧ t.clsB = fpClassify s.fmt s.b ∧ u.clsA = t.clsA ∧ u.clsB = t.clsB

/-- 70_reset_and_hazards.md R233, R237: present, wait, sample: whatever the outputs showed before, after the step they are the function of the inputs presented, and a sample reads them. The fields `settled` and `draws` are the model's own (log entry 5), and a step as one evaluation is the model's choice (log entry 4). -/
def Obligations.PresentStepSampleGivesTheFunctionOfTheInputs : Prop :=
  ∀ (s : State) (op rm : BitVec 2) (a b : BitVec s.fmt.W), s.fmt.supported = true →
    ∃ y ca cb, step (s.present op rm a b) =
        .next { s with
          op := op, rm := rm, a := a, b := b, y := y, clsA := ca, clsB := cb
          settled := true, draws := if s.changedBy op rm a b then s.draws + 1 else s.draws } ∧
      (⟨y, ca, cb⟩ : Outputs s.fmt) = fpCore s.fmt op rm a b

/-- The invariant `State.Good` (Sys2Proof/Safety.lean): every step keeps it, and so does presenting any inputs. With 10_state.md R29, 40_representation.md R92 and 60_exceptions.md R215 it says what holds of settled outputs. -/
def Obligations.EveryStepAndEveryPresentKeepsTheStateGood : Prop :=
  ∀ s : State, s.Good →
    (∀ t, step s = .next t → t.Good) ∧ (∃ t, step s = .next t) ∧
    ∀ op rm a b, (s.present op rm a b).Good

/-- The invariant holds at reset, and at power-up of either build. The values on the ports there are the model's choice (log entries 1 to 3). -/
def Obligations.ResetIsGood : Prop :=
  State.reset.Good ∧ (State.powerUp binary16).Good ∧ (State.powerUp binary32).Good

/-- 70_reset_and_hazards.md R233, 10_state.md R34: while the inputs are stable the outputs stay: presenting the values already on the ports changes nothing, settled or not; after a change of `op`, `rm`, `a` or `b` the outputs are not settled. The fields `settled` and `draws` are the model's own (log entry 5). -/
def Obligations.OnlyAnInputChangeUnsettlesTheOutputs : Prop :=
  (∀ s : State, s.present s.op s.rm s.a s.b = s) ∧
  ∀ (s : State) (op rm : BitVec 2) (a b : BitVec s.fmt.W),
    (op ≠ s.op ∨ rm ≠ s.rm ∨ a ≠ s.a ∨ b ≠ s.b) →
      (s.present op rm a b).settled = false ∧ (s.present op rm a b).draws = s.draws + 1
end

