-- ==== Sys2Proof/Laws/Arith.lean ====
section
/-! SUPPORT. Sys2Proof/Laws/Arith.lean: the steps of the adder and the divider, and the way each operation reaches its datapath. -/

namespace Sys2Proof.Machine

/-- The adder's left shifts: `k` of them, each taking one from the exponent, until `2^(M+X)` is reached or the fuel is out. -/
theorem leftShifts_spec (f : Fmt) (fuel t : Nat) (e : Int) :
    ∃ k, k ≤ fuel ∧ leftShifts f fuel t e = (t * 2 ^ k, e - k) ∧
      (2 ^ (f.mbits + f.guard) ≤ t * 2 ^ k ∨ k = fuel) ∧ ∀ j, j < k → t * 2 ^ j < 2 ^ (f.mbits + f.guard) := by
  induction fuel generalizing t e with
  | zero => exact ⟨0, by simp [leftShifts]⟩
  | succ n ih =>
    by_cases ht : t < 2 ^ (f.mbits + f.guard)
    · obtain ⟨k, hk, heq, hstop, hbefore⟩ := ih (t * 2) (e - 1)
      have hpow : ∀ j, t * 2 * 2 ^ j = t * 2 ^ (j + 1) := fun j => by ring
      refine ⟨k + 1, by omega, ?_, ?_, ?_⟩
      · rw [leftShifts, if_pos ht, heq, hpow]
        congr 1
        push_cast
        ring
      · rw [hpow] at hstop
        exact hstop.imp_right (by omega)
      · intro j hj
        cases j with
        | zero => simpa using ht
        | succ j => rw [← hpow]; exact hbefore j (by omega)
    · exact ⟨0, by simp [leftShifts, ht, not_lt.mp ht]⟩

theorem preShift_of_lt {sa sb : Nat} (ea : Int) (h : sa < sb) : preShift sa sb ea = (sa * 2, ea - 1) := by
  simp [preShift, h]

theorem preShift_of_ge {sa sb : Nat} (ea : Int) (h : sb ≤ sa) : preShift sa sb ea = (sa, ea) := by
  simp [preShift, not_lt.mpr h]

/-- FADD of two operands that are neither NaN nor infinite is the finite addition of the pair in magnitude order. -/
theorem fpAdder_of_not_special {f : Fmt} {a b : BitVec f.W} (rm : RoundingMode)
    (ha : isNaN f a = false) (hb : isNaN f b = false) (ia : isInf f a = false) (ib : isInf f b = false) :
    fpAdder f a b rm = if mag f a < mag f b then addOrdered f b a rm else addOrdered f a b rm := by
  simp [fpAdder, ha, hb, ia, ib]

/-- FMUL of two operands that are neither NaN, infinite nor zero is the datapath's product. -/
theorem fpMultiplier_of_not_special {f : Fmt} {a b : BitVec f.W} (rm : RoundingMode)
    (ha : isNaN f a = false) (hb : isNaN f b = false) (ia : isInf f a = false) (ib : isInf f b = false)
    (za : isZero f a = false) (zb : isZero f b = false) : fpMultiplier f a b rm = mulFinite f a b rm := by
  simp [fpMultiplier, ha, hb, ia, ib, za, zb]

/-- FDIV of two operands that are neither NaN, infinite nor zero is the datapath's quotient. -/
theorem fpDivider_of_not_special {f : Fmt} {a b : BitVec f.W} (rm : RoundingMode)
    (ha : isNaN f a = false) (hb : isNaN f b = false) (ia : isInf f a = false) (ib : isInf f b = false)
    (za : isZero f a = false) (zb : isZero f b = false) : fpDivider f a b rm = divFinite f a b rm := by
  simp [fpDivider, ha, hb, ia, ib, za, zb]

/-- `x[W-1]` is the sign (30_encoding.md R66). -/
theorem signOf_eq_getLsbD (f : Fmt) (x : BitVec f.W) : signOf f x = x.getLsbD (f.W - 1) := rfl

end Sys2Proof.Machine
end

