-- ==== Sys2Proof/Laws/State.lean ====
section
/-! SUPPORT. Sys2Proof/Laws/State.lean: what each act on the state does to each field, so that no later proof unfolds a record update. -/

namespace Sys2Proof.Machine

variable (s : State) (op rm : BitVec 2) (a b y : BitVec s.fmt.W) (f : Fmt)

@[simp] theorem State.present_fmt : (s.present op rm a b).fmt = s.fmt := rfl
@[simp] theorem State.present_op : (s.present op rm a b).op = op := rfl
@[simp] theorem State.present_rm : (s.present op rm a b).rm = rm := rfl
@[simp] theorem State.present_a : (s.present op rm a b).a = a := rfl
@[simp] theorem State.present_b : (s.present op rm a b).b = b := rfl
@[simp] theorem State.present_y :
    (s.present op rm a b).y = if s.changedBy op rm a b then unsettledY s.fmt s.draws else s.y := rfl
@[simp] theorem State.present_clsA :
    (s.present op rm a b).clsA = if s.changedBy op rm a b then unsettledClass (2 * s.draws) else s.clsA := rfl
@[simp] theorem State.present_clsB :
    (s.present op rm a b).clsB = if s.changedBy op rm a b then unsettledClass (2 * s.draws + 1) else s.clsB := rfl
@[simp] theorem State.present_draws :
    (s.present op rm a b).draws = if s.changedBy op rm a b then s.draws + 1 else s.draws := rfl
@[simp] theorem State.present_settled :
    (s.present op rm a b).settled = (!s.changedBy op rm a b && s.settled) := rfl

/-- No change means exactly the values already on the ports. -/
theorem State.changedBy_eq_false :
    s.changedBy op rm a b = false ↔ op = s.op ∧ rm = s.rm ∧ a = s.a ∧ b = s.b := by
  simp [State.changedBy, and_assoc]

@[simp] theorem State.driven_fmt : (s.driven y).fmt = s.fmt := rfl
@[simp] theorem State.driven_op : (s.driven y).op = s.op := rfl
@[simp] theorem State.driven_rm : (s.driven y).rm = s.rm := rfl
@[simp] theorem State.driven_a : (s.driven y).a = s.a := rfl
@[simp] theorem State.driven_b : (s.driven y).b = s.b := rfl
@[simp] theorem State.driven_y : (s.driven y).y = y := rfl
@[simp] theorem State.driven_clsA : (s.driven y).clsA = fpClassify s.fmt s.a := rfl
@[simp] theorem State.driven_clsB : (s.driven y).clsB = fpClassify s.fmt s.b := rfl
@[simp] theorem State.driven_draws : (s.driven y).draws = s.draws := rfl
@[simp] theorem State.driven_settled : (s.driven y).settled = true := rfl

@[simp] theorem State.withFetchWord_fmt (n w : Nat) : (s.withFetchWord n w).fmt = s.fmt := rfl
@[simp] theorem State.withFetchWord_a (n w : Nat) : (s.withFetchWord n w).a = s.a := rfl
@[simp] theorem State.withFetchWord_b (n w : Nat) : (s.withFetchWord n w).b = s.b := rfl

@[simp] theorem State.powerUp_fmt : (State.powerUp f).fmt = f := rfl
@[simp] theorem State.powerUp_settled : (State.powerUp f).settled = false := rfl

end Sys2Proof.Machine
end

