-- ==== Sys2Proof/Laws/Ops.lean ====
section
/-! SUPPORT. Sys2Proof/Laws/Ops.lean: what the shared operations over the ports can do, each said once. -/

namespace Sys2Proof

/-- The only two builds there are (00_scope.md R3). -/
theorem Fmt.supported_iff (f : Fmt) : f.supported = true ↔ f = binary16 ∨ f = binary32 := by
  simp [Fmt.supported]

end Sys2Proof

namespace Sys2Proof.Machine

theorem drive_of_supported {s : State} (y : BitVec s.fmt.W) (h : s.fmt.supported = true) :
    drive s y = .next (s.driven y) := by
  simp [drive, h]

theorem drive_of_unsupported {s : State} (y : BitVec s.fmt.W) (h : s.fmt.supported = false) :
    drive s y = .refused (.unsupportedFormat s.fmt.ebits s.fmt.mbits) := by
  simp [drive, h]

/-- Driving the outputs answers a next state only in a legal build, and then only the driven one. -/
theorem drive_eq_next {s t : State} {y : BitVec s.fmt.W} (h : drive s y = .next t) :
    s.fmt.supported = true ∧ t = s.driven y := by
  cases hs : s.fmt.supported with
  | true => simpa [drive, hs, eq_comm] using h
  | false => simp [drive, hs] at h

/-- After a change every output is a free value and nothing has settled. -/
theorem State.present_of_changed {s : State} {op rm : BitVec 2} {a b : BitVec s.fmt.W}
    (h : s.changedBy op rm a b = true) :
    s.present op rm a b =
      { s with
        op := op, rm := rm, a := a, b := b, y := unsettledY s.fmt s.draws
        clsA := unsettledClass (2 * s.draws), clsB := unsettledClass (2 * s.draws + 1)
        settled := false, draws := s.draws + 1 } := by
  simp [State.present, h]

/-- Sampling after an evaluation reads its result and the classes of the operands. -/
theorem State.sample_driven (s : State) (y : BitVec s.fmt.W) :
    (s.driven y).sample = ⟨y, fpClassify s.fmt s.a, fpClassify s.fmt s.b⟩ := rfl

theorem exec_fadd (rm : RoundingMode) (s : State) : exec (.fadd rm) s = drive s (fpAdder s.fmt s.a s.b rm) := rfl
theorem exec_fsub (rm : RoundingMode) (s : State) : exec (.fsub rm) s = drive s (fpSub s.fmt s.a s.b rm) := rfl
theorem exec_fmul (rm : RoundingMode) (s : State) : exec (.fmul rm) s = drive s (fpMultiplier s.fmt s.a s.b rm) := rfl
theorem exec_fdiv (rm : RoundingMode) (s : State) : exec (.fdiv rm) s = drive s (fpDivider s.fmt s.a s.b rm) := rfl

theorem step_def (s : State) : step s = exec s.command s := rfl

/-- Every command ends in `drive`: the inversion every later fact about a step goes through. -/
theorem exec_eq_drive (i : Instr) (s : State) : ∃ y, exec i s = drive s y := by
  cases i with
  | fadd rm => exact ⟨_, exec_fadd rm s⟩
  | fsub rm => exact ⟨_, exec_fsub rm s⟩
  | fmul rm => exact ⟨_, exec_fmul rm s⟩
  | fdiv rm => exact ⟨_, exec_fdiv rm s⟩

end Sys2Proof.Machine
end

