-- ==== Sys2Proof/Laws/PerInstr.lean ====
section
/-! SUPPORT. Sys2Proof/Laws/PerInstr.lean: one lemma per constructor of Instr: it is well formed, and its command word has its opcode-table row's code in `cmd[1:0]` and its mode's code in `cmd[3:2]` (30_encoding.md R60). -/

namespace Sys2Proof.Laws.TableRow

/-- Well formed, with both fields of the command word in their places. -/
def Statement (i : Instr) : Prop :=
  i.wellFormed = true ∧ cmdOp (encodeCmd i) = encodeOp i ∧ cmdMode (encodeCmd i) = encodeMode i.mode

theorem fadd (rm : RoundingMode) : Statement (.fadd rm) := by cases rm <;> exact ⟨rfl, rfl, rfl⟩
theorem fsub (rm : RoundingMode) : Statement (.fsub rm) := by cases rm <;> exact ⟨rfl, rfl, rfl⟩
theorem fmul (rm : RoundingMode) : Statement (.fmul rm) := by cases rm <;> exact ⟨rfl, rfl, rfl⟩
theorem fdiv (rm : RoundingMode) : Statement (.fdiv rm) := by cases rm <;> exact ⟨rfl, rfl, rfl⟩

end Sys2Proof.Laws.TableRow
end

