-- ==== Sys2Proof/Laws/Rounding.lean ====
section
/-! SUPPORT. Sys2Proof/Laws/Rounding.lean: what the shared datapath parts can do, each said once. -/

namespace Sys2Proof.Machine

/-- The normalizer's loop shifts left `k` times and takes `k` from the exponent. It stops with bit `M` set, or when its fuel is out. -/
theorem normalizeLoop_spec (f : Fmt) (fuel : Nat) (en : Int) (sig : Nat) :
    ∃ k, k ≤ fuel ∧ normalizeLoop f fuel en sig = (en - k, sig * 2 ^ k) ∧
      (bit (sig * 2 ^ k) f.mbits = true ∨ k = fuel) ∧ ∀ j, j < k → bit (sig * 2 ^ j) f.mbits = false := by
  induction fuel generalizing en sig with
  | zero => exact ⟨0, by simp [normalizeLoop]⟩
  | succ n ih =>
    by_cases hb : bit sig f.mbits = true
    · exact ⟨0, by simp [normalizeLoop, hb]⟩
    · obtain ⟨k, hk, heq, hstop, hbefore⟩ := ih (en - 1) (sig * 2)
      have hpow : ∀ j, sig * 2 * 2 ^ j = sig * 2 ^ (j + 1) := fun j => by ring
      refine ⟨k + 1, by omega, ?_, ?_, ?_⟩
      · rw [normalizeLoop, if_neg hb, heq, hpow]
        congr 1
        push_cast
        ring
      · rw [hpow] at hstop
        exact hstop.imp_right (by omega)
      · intro j hj
        cases j with
        | zero => simpa using hb
        | succ j => rw [← hpow]; exact hbefore j (by omega)

/-- Rounding leaves the significand or adds one to it. -/
theorem fpRound_eq_or (sig : Nat) (rm : RoundingMode) (rb sb s : Bool) :
    fpRound sig rm rb sb s = sig ∨ fpRound sig rm rb sb s = sig + 1 := by
  unfold fpRound b2n
  split <;> simp

/-- Nothing discarded, nothing added. -/
theorem fpRound_exact (sig : Nat) (rm : RoundingMode) (s : Bool) : fpRound sig rm false false s = sig := by
  cases rm <;> simp [fpRound, inc, b2n]

theorem carry_of_ne (f : Fmt) (en : Int) {sig : Nat} (h : sig ≠ 2 ^ (f.mbits + 1)) : carry f en sig = (en, sig) := by
  simp [carry, h]

theorem carry_of_eq (f : Fmt) (en : Int) : carry f en (2 ^ (f.mbits + 1)) = (en + 1, 2 ^ f.mbits) := by
  simp [carry]

/-- The overflow result is an infinity or the largest finite value, with the sign given. -/
theorem ovf_eq_or (f : Fmt) (s : Bool) (rm : RoundingMode) : ovf f s rm = inf f s ∨ ovf f s rm = maxf f s := by
  cases rm <;> cases s <;> simp [ovf]

theorem fpResolve_of_overflow {f : Fmt} {e : Int} (s : Bool) (sig xb : Nat) (sin : Bool) (rm : RoundingMode)
    (h : (f.emaxc : Int) ≤ e) : fpResolve f s e sig xb sin rm = ovf f s rm := by
  simp [fpResolve, h]

theorem fpResolve_of_underflow {f : Fmt} {e : Int} (s : Bool) (sig xb : Nat) (sin : Bool) (rm : RoundingMode)
    (h : e < f.emaxc) (h0 : e ≤ 0) : fpResolve f s e sig xb sin rm = resolveUnderflow f s e sig xb sin rm := by
  simp [fpResolve, h0, not_le.mpr h]

theorem fpResolve_of_normal {f : Fmt} {e : Int} (s : Bool) (sig xb : Nat) (sin : Bool) (rm : RoundingMode)
    (h : e < f.emaxc) (h0 : 0 < e) : fpResolve f s e sig xb sin rm = pack f s e.toNat (sig - 2 ^ f.mbits) := by
  simp [fpResolve, not_le.mpr h, not_le.mpr h0]

/-- Everything the resolver can answer: an overflow result, or a finite encoding with the sign given. -/
theorem fpResolve_cases (f : Fmt) (s : Bool) (e : Int) (sig xb : Nat) (sin : Bool) (rm : RoundingMode) :
    fpResolve f s e sig xb sin rm = ovf f s rm ∨ fpResolve f s e sig xb sin rm = pack f s 1 0 ∨
    (∃ t, fpResolve f s e sig xb sin rm = pack f s 0 t) ∨
    (0 < e ∧ e < f.emaxc ∧ fpResolve f s e sig xb sin rm = pack f s e.toNat (sig - 2 ^ f.mbits)) := by
  by_cases h : (f.emaxc : Int) ≤ e
  · exact .inl (fpResolve_of_overflow s sig xb sin rm h)
  · have h' : e < f.emaxc := not_le.mp h
    by_cases h0 : e ≤ 0
    · rw [fpResolve_of_underflow s sig xb sin rm h' h0]
      obtain ⟨t, ht⟩ : ∃ t, resolveUnderflow f s e sig xb sin rm = if t = 2 ^ f.mbits then pack f s 1 0 else pack f s 0 t :=
        ⟨_, rfl⟩
      rw [ht]
      split
      · exact .inr (.inl rfl)
      · exact .inr (.inr (.inl ⟨t, rfl⟩))
    · exact .inr (.inr (.inr ⟨not_le.mp h0, h', fpResolve_of_normal s sig xb sin rm h' (not_le.mp h0)⟩))

theorem roundOrDefer_of_pos {f : Fmt} {e : Int} (s : Bool) (wide : Nat) (sb : Bool) (rm : RoundingMode) (h : 0 < e) :
    roundOrDefer f s e wide sb rm = roundThenResolve f s e (wide / 2) (bit wide 0) sb rm := by
  simp [roundOrDefer, h]

theorem roundOrDefer_of_nonpos {f : Fmt} {e : Int} (s : Bool) (wide : Nat) (sb : Bool) (rm : RoundingMode) (h : e ≤ 0) :
    roundOrDefer f s e wide sb rm = fpResolve f s e wide 1 sb rm := by
  simp [roundOrDefer, not_lt.mpr h]

end Sys2Proof.Machine
end

