-- ==== Sys2Proof/Tests/Slice0.lean ====
section
/-! SUPPORT. Sys2Proof/Tests/Slice0.lean: the model's own tests. Expected results are the examples and vectors of spec/ (each test names its source); every witness theorem shows values that meet all the hypotheses of the obligation it is named after. -/

namespace Sys2Proof.Tests

open Sys2Proof Sys2Proof.Machine

/-! ### Helpers -/

/-- A binary32 instance with these inputs presented. -/
abbrev in32 (op rm : BitVec 2) (a b : BitVec 32) : State := (State.powerUp binary32).present op rm a b

/-- A binary16 instance with these inputs presented. -/
abbrev in16 (op rm : BitVec 2) (a b : BitVec 16) : State := (State.powerUp binary16).present op rm a b

/-- The sampled `(y, cls_a, cls_b)` after one step. -/
def sampled (s : State) : Option (Nat × Nat × Nat) :=
  match step s with
  | .next t => some (t.sample.y.toNat, t.sample.clsA.toNat, t.sample.clsB.toNat)
  | .fault _ => none
  | .refused _ => none

/-! ### Well-formedness: what the checks refuse (00_scope.md R3) -/

theorem test_supported_binary16 : binary16.supported = true := by decide
theorem test_supported_binary32 : binary32.supported = true := by decide
theorem test_unsupported_binary64 : (Fmt.mk 11 52).supported = false := by decide
theorem test_unsupported_swapped_fields : (Fmt.mk 10 5).supported = false := by decide
theorem test_unsupported_build_answers_no_outputs : sampled (State.powerUp ⟨11, 52⟩) = none := by decide

/-! ### Decoding: words written out from the opcode map of 30_encoding.md section 4, `rr` then `oo` -/

theorem test_decode_fadd_rne : decode [0b0000_01_00#8] = .ok (.fadd .rne, []) := by rfl
theorem test_decode_fsub_rd : decode [0b0000_11_01#8] = .ok (.fsub .rd, []) := by rfl
theorem test_decode_fmul_rz : decode [0b0000_00_10#8] = .ok (.fmul .rz, []) := by rfl
theorem test_decode_fdiv_ru : decode [0b0000_10_11#8] = .ok (.fdiv .ru, []) := by rfl
theorem test_decode_rejects_five_bits : decode [0x10#8] = .error .notFourBits := by rfl
theorem test_decode_rejects_nothing : decode [] = .error .noByte := by rfl
theorem test_decodeTableWord_fdiv_rd : decodeTableWord 8 0xF = some (.fdiv .rd) := by decide
theorem test_decodeTableWord_ignores_bits_above_nbits : decodeTableWord 4 0x1F = some (.fdiv .rd) := by decide
theorem test_decodeTableWord_rejects : decodeTableWord 8 0x10 = none := by decide
theorem test_asm_fdiv_rd : (Instr.fdiv .rd).asm = "FDIV.RD" := by decide

/-- A row of spec/opcode_table.json: the bits of `cmd` under the mask, and what the row stands for. -/
theorem test_every_word_decodes_to_its_opcode_row : ∀ cmd : BitVec 4,
    (cmd &&& 0x3#4 = 0x0#4 → ∃ rm, decodeCmd cmd = .fadd rm) ∧ (cmd &&& 0x3#4 = 0x1#4 → ∃ rm, decodeCmd cmd = .fsub rm) ∧
    (cmd &&& 0x3#4 = 0x2#4 → ∃ rm, decodeCmd cmd = .fmul rm) ∧ (cmd &&& 0x3#4 = 0x3#4 → ∃ rm, decodeCmd cmd = .fdiv rm) := by
  have h : ∀ cmd : BitVec 4,
      (cmd &&& 0x3#4 = 0x0#4 → decodeCmd cmd = .fadd (decodeMode (cmdMode cmd))) ∧
      (cmd &&& 0x3#4 = 0x1#4 → decodeCmd cmd = .fsub (decodeMode (cmdMode cmd))) ∧
      (cmd &&& 0x3#4 = 0x2#4 → decodeCmd cmd = .fmul (decodeMode (cmdMode cmd))) ∧
      (cmd &&& 0x3#4 = 0x3#4 → decodeCmd cmd = .fdiv (decodeMode (cmdMode cmd))) := by decide
  exact fun cmd => ⟨fun e => ⟨_, (h cmd).1 e⟩, fun e => ⟨_, (h cmd).2.1 e⟩, fun e => ⟨_, (h cmd).2.2.1 e⟩, fun e => ⟨_, (h cmd).2.2.2 e⟩⟩

/-! ### Components: vectors of 95_test_vectors.md sections 2.1 to 2.4 -/

theorem test_fpDecode_b32 : fpDecode binary32 0xC0490FDB#32 = ⟨true, 0x80#8, 0x490FDB#23⟩ := by decide
theorem test_fpEncode_b16_one : fpEncode binary16 ⟨false, 15#5, 0#10⟩ = 0x3C00#16 := by decide
theorem test_classify_subnormal : fpClassify binary32 0x807FFFFF#32 = 0b000010#6 := by decide
theorem test_classify_nonquiet : fpClassify binary16 0x7C01#16 = 0b010000#6 := by decide
theorem test_quiet_b16 : quiet binary16 0x7C01#16 = 0x7E01#16 := by decide
theorem test_neg_nan : neg binary32 0x7FC00000#32 = 0xFFC00000#32 := by decide
theorem test_normalize_mins : fpNormalize binary32 0 1 = (-22, 0x800000) := by decide
theorem test_normalize_maxs : fpNormalize binary16 0 0x3FF = (0, 0x7FE) := by decide
theorem test_normalize_zero : fpNormalize binary32 0 0 = (0, 0) := by decide
theorem test_round_carries : fpRound 0xFFFFFF .rne true false false = 0x1000000 := by decide
theorem test_round_tie_to_even : fpRound 0xFFFFFE .rne true false false = 0xFFFFFE := by decide
theorem test_resolve_threshold : fpResolve binary32 false (-23) 0xC00000 0 false .rne = 0x00000001#32 := by decide
theorem test_resolve_sticky_decides : fpResolve binary32 true (-22) 0x1000000 1 true .rd = 0x80000002#32 := by decide
theorem test_resolve_rounds_into_minn : fpResolve binary16 false 0 0x7FF 0 false .ru = 0x0400#16 := by decide
theorem test_value_of_minus_one_and_a_half : value? binary32 0xBFC00000#32 = some (-3 / 2) := by decide +kernel
theorem test_value_of_mins : value? binary16 0x0001#16 = some (1 / 2 ^ 24) := by decide +kernel
theorem test_roundToFormat_third : roundToFormat binary32 false (1 / 3) .rne = 0x3EAAAAAB#32 := by decide +kernel
theorem test_roundToFormat_sticky : roundToFormat binary32 false (1 / 2 ^ 200) .ru = 0x00000001#32 := by decide +kernel

/-! ### One step of each command: two vectors of 95_test_vectors.md section 3 each -/

/-- V18 under RZ: the far path's borrow into the lower binade. -/
theorem test_fadd_far_borrow : sampled (in32 0b00 0b00 0x3F800000 0x8C000000) = some (0x3F7FFFFF, 4, 4) := by decide
/-- V31 under RU: binary16 1 + 2^-11. -/
theorem test_fadd_b16_tie_up : sampled (in16 0b00 0b10 0x3C00 0x0C00) = some (0x3C01, 4, 4) := by decide
/-- V37 under RD: the exact zero is negative. -/
theorem test_fsub_exact_zero_rd : sampled (in32 0b01 0b11 0x3F800000 0x3F800000) = some (0x80000000, 4, 4) := by decide
/-- V39: the sign of a NaN `b` is flipped. -/
theorem test_fsub_nan_b : sampled (in32 0b01 0b01 0x3F800000 0x7FC00000) = some (0xFFC00000, 4, 48) := by decide
/-- V63 under RNE: the sticky bit of an underflowing product. -/
theorem test_fmul_underflow_sticky : sampled (in32 0b10 0b01 0x01D52B39 0x3DE11CC9) = some (0x005DB97B, 4, 4) := by decide
/-- V49: an invalid product gives the canonical NaN whatever the signs. -/
theorem test_fmul_invalid : sampled (in32 0b10 0b10 0x80000000 0x7F800000) = some (0x7FC00000, 1, 8) := by decide
/-- V90 under RNE: the pre-shift. -/
theorem test_fdiv_preshift : sampled (in32 0b11 0b01 0x3FC00000 0x3FC00001) = some (0x3F7FFFFF, 4, 4) := by decide
/-- V93 under RU: binary16 MINS / 3. -/
theorem test_fdiv_b16_underflow_ru : sampled (in16 0b11 0b10 0x0001 0x4200) = some (0x0001, 2, 4) := by decide

/-- The host's word stored on the ports is the command the next step runs (FADD.RNE of two zeros). -/
theorem test_withFetchWord_runs : sampled (State.reset.withFetchWord 8 0x4) = some (0, 1, 1) := by decide

/-! ### Witnesses: values that meet every hypothesis of the obligation named -/

theorem witness_DecodeAndEncodeAgreeOnCommands : 16 ≤ (0x10#8).toNat := by decide

theorem witness_EveryValueIsInExactlyOneClass : binary16.supported = true ∧ binary32.supported = true := by decide

theorem witness_ClassOutputIsOneHotAndIgnoresTheSign : binary16.supported = true ∧ binary32.supported = true := by decide

/-- One clause each: a non-quiet NaN, the smallest; a quiet NaN, the canonical one. -/
theorem witness_QuietForcesTheQuietBitAndNothingElse :
    binary32.supported = true ∧ isNaN binary32 0x7F800001#32 = true ∧ isQuiet binary32 0x7FC00000#32 = true := by decide

theorem witness_NegFlipsTheSignBitAndNothingElse : 31 < binary32.W := by decide

/-- The three clauses: two finite values, an infinity with the largest finite value, two infinities. -/
theorem witness_MagnitudeOrderIsTheOrderOfAbsoluteValues :
    binary16.supported = true ∧ value? binary16 0x0400#16 = some (1 / 2 ^ 14) ∧ value? binary16 0x7BFF#16 = some 65504 ∧
    isInf binary16 0x7C00#16 = true ∧ isInf binary16 0xFC00#16 = true := by decide +kernel

/-- The smallest subnormal, and the smallest normal. -/
theorem witness_NormalizerKeepsTheValueAndSetsTheImplicitBit :
    binary16.supported = true ∧ value? binary16 0x0001#16 = some (1 / 2 ^ 24) ∧ (1 / 2 ^ 24 : ℚ) ≠ 0 ∧
    isSubnormal binary16 0x0001#16 = true ∧ value? binary16 0x0400#16 = some (1 / 2 ^ 14) ∧ (1 / 2 ^ 14 : ℚ) ≠ 0 := by
  decide +kernel

/-- The tie `q = 1/2`, and `q = 0`. -/
theorem witness_RounderRoundsTheDiscardedFraction :
    ((0 : ℚ) ≤ 1 / 2 ∧ (1 / 2 : ℚ) < 1 ∧ (true = true ↔ (1 / 2 : ℚ) ≤ 1 / 2) ∧ (false = true ↔ (1 / 2 : ℚ) ≠ 0 ∧ (1 / 2 : ℚ) ≠ 1 / 2)) ∧
    ((0 : ℚ) ≤ 0 ∧ (0 : ℚ) < 1 ∧ (false = true ↔ (1 / 2 : ℚ) ≤ 0) ∧ (false = true ↔ (0 : ℚ) ≠ 0 ∧ (0 : ℚ) ≠ 1 / 2)) := by
  norm_num

theorem witness_PostRoundCarryKeepsTheValue : (2 ^ 23 : Nat) ≠ 2 ^ (binary32.mbits + 1) := by decide

theorem witness_OverflowResultFollowsModeAndSign : (binary32.emaxc : Int) ≤ 255 ∧ (binary16.emaxc : Int) ≤ 31 := by decide

/-- The underflow branch with an extra bit and a tail at `e = 0`, and the normal branch at `e = 1`. -/
theorem witness_ResolverIsTheExactRounding :
    (binary32.supported = true ∧ 1 ≤ 1 ∧ 2 ^ (binary32.mbits + 1) ≤ 0x1FFFFFF ∧ 0x1FFFFFF < 2 ^ (binary32.mbits + 1 + 1) ∧
      (0 < (0 : Int) → (1 : Nat) = 0 ∧ true = false) ∧ (0 : ℚ) ≤ 1 / 2 ∧ (1 / 2 : ℚ) < 1 ∧ ((0 : ℚ) < 1 / 2 ↔ true = true)) ∧
    (binary32.supported = true ∧ 0 ≤ 1 ∧ 2 ^ (binary32.mbits + 0) ≤ 0x800000 ∧ 0x800000 < 2 ^ (binary32.mbits + 0 + 1) ∧
      (0 < (1 : Int) → (0 : Nat) = 0 ∧ false = false) ∧ (0 : ℚ) ≤ 0 ∧ (0 : ℚ) < 1 ∧ ((0 : ℚ) < 0 ↔ false = true)) := by
  decide +kernel

theorem witness_ExactRoundingFixesRepresentableValues :
    binary32.supported = true ∧ value? binary32 0x3F800000#32 = some 1 ∧ (1 : ℚ) ≠ 0 := by decide +kernel

theorem witness_RoundTowardZeroGivesTheLargestMagnitudeBelow :
    binary16.supported = true ∧ (0 : ℚ) < 65505 ∧ value? binary16 0x7BFF#16 = some 65504 ∧ |(65504 : ℚ)| ≤ 65505 := by
  decide +kernel

/-- Just below the binary16 threshold 65520; and a tie halfway between 1 and its successor, met by both neighbours. -/
theorem witness_RoundToNearestGivesTheNearestMagnitude :
    (binary16.supported = true ∧ (0 : ℚ) < 65519 ∧
      (65519 : ℚ) < (2 ^ (binary16.mbits + 2) - 1 : ℚ) * (2 : ℚ) ^ ((binary16.emaxc : Int) - binary16.bias - binary16.mbits - 2)) ∧
    (value? binary16 0x3C00#16 = some 1 ∧ value? binary16 0x3C01#16 = some (1025 / 1024) ∧
      signOf binary16 0x3C01#16 = false ∧ |(2049 / 2048 : ℚ) - (|(1 : ℚ)|)| = |(2049 / 2048 : ℚ) - (|(1025 / 1024 : ℚ)|)| ∧
      0x3C01#16 ≠ roundToFormat binary16 false (2049 / 2048) .rne) := by
  decide +kernel

/-- Both alternatives: above the largest finite value, and at it. -/
theorem witness_RoundAwayGivesTheLeastMagnitudeAbove :
    binary16.supported = true ∧ (0 : ℚ) < 65505 ∧ roundToFormat binary16 false 65505 .ru = inf binary16 false ∧
    (0 : ℚ) < 65504 ∧ value? binary16 (roundToFormat binary16 false 65504 .ru) = some 65504 := by decide +kernel

/-- A magnitude that rounds to zero under RZ. -/
theorem witness_ExactRoundingMirrorsDirectedModesAndKeepsTheSign :
    binary16.supported = true ∧ (0 : ℚ) < 1 / 2 ^ 30 ∧ isZero binary16 (roundToFormat binary16 true (1 / 2 ^ 30) .rz) = true := by
  decide +kernel

/-- Both sides of the binary16 threshold. -/
theorem witness_NearestOverflowsExactlyFromHalfAnUlpAboveTheLargest :
    (0 : ℚ) < 65520 ∧ roundToFormat binary16 false 65520 .rne = inf binary16 false ∧
    (0 : ℚ) < 65519 ∧ roundToFormat binary16 false 65519 .rne = maxf binary16 false := by decide +kernel

/-- A NaN `a`; a non-NaN `a` with a NaN `b`. -/
theorem witness_NanOperandIsReturnedQuieted :
    (isNaN binary32 (in32 0 0 0x7F800001 0).a = true) ∧
    (isNaN binary32 (in32 0 0 0x7F800000 0xFFC00123).a = false ∧ isNaN binary32 (in32 0 0 0x7F800000 0xFFC00123).b = true) ∧
    (in32 0 0 0 0).fmt.supported = true := by decide

/-- The four clauses: opposite infinities, equal infinities, infinity and finite, finite and infinity. -/
theorem witness_FaddOfInfinities :
    (in32 0 0 0 0).fmt.supported = true ∧ isInf binary32 0x7F800000#32 = true ∧ isInf binary32 0xFF800000#32 = true ∧
    signOf binary32 0x7F800000#32 ≠ signOf binary32 0xFF800000#32 ∧
    signOf binary32 0x7F800000#32 = signOf binary32 0x7F800000#32 ∧ isFinite binary32 0x7F7FFFFF#32 = true := by decide

/-- The four clauses: nonzero and zero either way round, zeros of one sign, zeros of two signs. -/
theorem witness_FaddWithAZeroOperand :
    (in16 0 0 0 0).fmt.supported = true ∧ isFinite binary16 0x0001#16 = true ∧ isZero binary16 0x0001#16 = false ∧
    isZero binary16 0x0000#16 = true ∧ isZero binary16 0x8000#16 = true ∧
    signOf binary16 0x8000#16 = signOf binary16 0x8000#16 ∧ signOf binary16 0x0000#16 ≠ signOf binary16 0x8000#16 := by decide

theorem witness_FaddExactZeroSignFollowsTheMode :
    (in32 0 0 0x3F800000 0xBF800000).fmt.supported = true ∧ value? binary32 0x3F800000#32 = some 1 ∧
    value? binary32 0xBF800000#32 = some (-1) ∧ (1 : ℚ) ≠ 0 ∧ (1 : ℚ) + -1 = 0 := by decide +kernel

theorem witness_FaddIsTheExactRoundingOfTheSum :
    (in32 0 0 0x3F800000 0x40000000).fmt.supported = true ∧ value? binary32 0x3F800000#32 = some 1 ∧
    value? binary32 0x40000000#32 = some 2 ∧ (1 : ℚ) ≠ 0 ∧ (2 : ℚ) ≠ 0 ∧ (1 : ℚ) + 2 ≠ 0 := by decide +kernel

/-- Both branches of the result: `1 - 2` and `1 - 1`. -/
theorem witness_FsubIsTheExactRoundingOfTheDifference :
    (in32 1 0 0x3F800000 0x40000000).fmt.supported = true ∧ value? binary32 0x3F800000#32 = some 1 ∧
    value? binary32 0x40000000#32 = some 2 ∧ (1 : ℚ) ≠ 0 ∧ (2 : ℚ) ≠ 0 ∧ (1 : ℚ) - 2 ≠ 0 ∧ (1 : ℚ) - 1 = 0 := by decide +kernel

theorem witness_FsubIsFaddOfTheNegatedOperand : (in32 1 0 0x3F800000 0x7FC00000).fmt.supported = true := by decide

/-- The three clauses: a finite, an infinite and a NaN operand against itself. -/
theorem witness_SelfSubtraction :
    (in32 1 0 0x3F800000 0x3F800000).fmt.supported = true ∧
    (in32 1 0 0x3F800000 0x3F800000).a = (in32 1 0 0x3F800000 0x3F800000).b ∧ isFinite binary32 0x3F800000#32 = true ∧
    isInf binary32 0x7F800000#32 = true ∧ isNaN binary32 0x7F800001#32 = true := by decide

/-- The three clauses: any other operand, minus zero, a NaN. -/
theorem witness_AdditiveIdentity :
    (in32 0 0 0x3F800000 0).fmt.supported = true ∧ (in32 0 0 0x3F800000 0).b = zero binary32 false ∧
    isNaN binary32 0x3F800000#32 = false ∧ 0x3F800000#32 ≠ zero binary32 true ∧ 0x80000000#32 = zero binary32 true ∧
    isNaN binary32 0x7F800001#32 = true := by
  exact ⟨by decide, rfl, by decide, by decide, by decide, by decide⟩

/-- One NaN beside a number is allowed. -/
theorem witness_FaddAndFmulCommuteUnlessBothAreNan :
    (in32 0 0 0x7F800001 0x3F800000).fmt.supported = true ∧
    ¬(isNaN binary32 0x7F800001#32 = true ∧ isNaN binary32 0x3F800000#32 = true) := by decide

theorem witness_SumOfSubnormalsIsExact :
    (in16 0 0 0x03FF 0x0001).fmt.supported = true ∧ isSubnormal binary16 0x03FF#16 = true ∧
    isSubnormal binary16 0x0001#16 = true ∧ value? binary16 0x03FF#16 = some (1023 / 2 ^ 24) ∧
    value? binary16 0x0001#16 = some (1 / 2 ^ 24) := by decide +kernel

/-- Both orders of the magnitudes. -/
theorem witness_SumHasTheSignOfTheLargerOperand :
    (in32 0 0 0x3F800000 0xC0000000).fmt.supported = true ∧ value? binary32 0x3F800000#32 = some 1 ∧
    value? binary32 0xC0000000#32 = some (-2) ∧ (1 : ℚ) ≠ 0 ∧ (-2 : ℚ) ≠ 0 ∧ (1 : ℚ) + -2 ≠ 0 ∧
    mag binary32 0x3F800000#32 < mag binary32 0xC0000000#32 ∧ mag binary32 0x3F800000#32 ≤ mag binary32 0xC0000000#32 := by
  decide +kernel

/-- The power of two that needs the borrow, at the least distance of the far path. -/
theorem witness_FarPathPartsStandForTheExactSum :
    2 ^ binary16.mbits ≤ 0x400 ∧ 0x400 < 2 ^ (binary16.mbits + 1) ∧ 2 ^ binary16.mbits ≤ 0x7FF ∧
    0x7FF < 2 ^ (binary16.mbits + 1) ∧ binary16.mbits + 3 ≤ 13 := by decide

/-- The greatest distance of the near path, and distance 0 with equal significands. -/
theorem witness_NearPathSumIsExactAndFitsItsWidth :
    2 ^ binary16.mbits ≤ 0x7FF ∧ 0x7FF < 2 ^ (binary16.mbits + 1) ∧ 12 ≤ binary16.mbits + 2 ∧ (12 = 0 → 0x7FF ≤ 0x7FF) ∧
    0 ≤ binary16.mbits + 2 ∧ (0 = 0 → 0x7FF ≤ 0x7FF) := by decide

/-- The case that takes all `M + 1` shifts: distance 1, `2^M` against `2^(M+1) - 1`. -/
theorem witness_LeftShiftsReachTheImplicitBitInTime :
    2 ^ binary16.mbits ≤ 0x400 ∧ 0x400 < 2 ^ (binary16.mbits + 1) ∧ 2 ^ binary16.mbits ≤ 0x7FF ∧
    0x7FF < 2 ^ (binary16.mbits + 1) ∧ 1 ≤ binary16.mbits + 2 ∧ (1 = 0 → 0x7FF ≤ 0x400) ∧
    nearSum binary16 false 0x400 0x7FF 1 ≠ 0 ∧ nearSum binary16 false 0x400 0x7FF 1 < 2 ^ (binary16.mbits + binary16.guard + 1) := by
  decide

/-- The six clauses: zero and infinity both ways, zero and finite both ways, infinity with an infinity both ways. -/
theorem witness_FmulSpecialCases :
    (in32 2 0 0 0).fmt.supported = true ∧ isZero binary32 0x80000000#32 = true ∧ isInf binary32 0x7F800000#32 = true ∧
    isFinite binary32 0x80000000#32 = true ∧ isZero binary32 0xFF800000#32 = false ∧ isNaN binary32 0xFF800000#32 = false ∧
    isInf binary32 0xFF800000#32 = true := by decide

theorem witness_FmulIsTheExactRoundingOfTheProduct :
    (in32 2 0 0x3F800000 0xC0000000).fmt.supported = true ∧ value? binary32 0x3F800000#32 = some 1 ∧
    value? binary32 0xC0000000#32 = some (-2) ∧ (1 : ℚ) ≠ 0 ∧ (-2 : ℚ) ≠ 0 := by decide +kernel

/-- The six clauses: 0/0, inf/inf, inf/0 and MINS/0, 0/inf, 0/MINS, inf/MINS. -/
theorem witness_FdivSpecialCases :
    (in32 3 0 0 0).fmt.supported = true ∧ isZero binary32 0x80000000#32 = true ∧ isInf binary32 0x7F800000#32 = true ∧
    isNaN binary32 0x7F800000#32 = false ∧ isZero binary32 0x7F800000#32 = false ∧ isFinite binary32 0x80000000#32 = true ∧
    isFinite binary32 0x00000001#32 = true ∧ isZero binary32 0x00000001#32 = false := by decide

/-- A dividend that needs the pre-shift, as far below the divisor as it can be. -/
theorem witness_DivisionStepsAreExact :
    2 ^ binary32.mbits ≤ 0x800000 ∧ 0x800000 < 2 ^ (binary32.mbits + 1) ∧ 2 ^ binary32.mbits ≤ 0xFFFFFF ∧
    0xFFFFFF < 2 ^ (binary32.mbits + 1) := by decide

theorem witness_FdivIsTheExactRoundingOfTheQuotient :
    (in32 3 0 0x3F800000 0xC0000000).fmt.supported = true ∧ value? binary32 0x3F800000#32 = some 1 ∧
    value? binary32 0xC0000000#32 = some (-2) ∧ (1 : ℚ) ≠ 0 ∧ (-2 : ℚ) ≠ 0 := by decide +kernel

theorem witness_EveryCommandCompletesOnEveryInput :
    (in16 0 0 0xFFFF 0x7C01).fmt.supported = true ∧ (in32 0 0 0xFFFFFFFF 0x7F800001).fmt.supported = true := by decide

/-- A command that gives the canonical NaN, and one that propagates a NaN operand. -/
theorem witness_EveryNanResultIsQuietAndOfOneOfThreeKinds :
    (in32 1 0 0x3F800000 0x7FC00000).fmt.supported = true ∧ isNaN binary32 (fpSub binary32 0x3F800000 0x7FC00000 .rz) = true ∧
    isNaN binary32 (fpDivider binary32 0 0 .rz) = true := by decide

theorem witness_InvalidOperationsAndNoOthersGiveTheCanonicalNan :
    (in32 3 0 0 0).fmt.supported = true ∧ isNaN binary32 (in32 3 0 0 0).a = false ∧ isNaN binary32 (in32 3 0 0 0).b = false := by
  decide

/-- 1 and 2, whose sum, difference, product and quotient are all representable. -/
theorem witness_RepresentableResultsAreExactInEveryMode :
    (in16 0 0 0x3C00 0x4000).fmt.supported = true ∧ value? binary16 0x3C00#16 = some 1 ∧ value? binary16 0x4000#16 = some 2 ∧
    value? binary16 0x4200#16 = some 3 ∧ (1 : ℚ) + 2 = 3 ∧ value? binary16 0xBC00#16 = some (-1) ∧ (1 : ℚ) - 2 = -1 ∧
    (1 : ℚ) * 2 = 2 ∧ value? binary16 0x3800#16 = some (1 / 2) ∧ (1 : ℚ) / 2 = 1 / 2 ∧
    (1 : ℚ) ≠ 0 ∧ (2 : ℚ) ≠ 0 ∧ (3 : ℚ) ≠ 0 ∧ (-1 : ℚ) ≠ 0 ∧ (1 / 2 : ℚ) ≠ 0 := by decide +kernel

theorem witness_OtherFormatsAreRefused : (State.powerUp ⟨11, 52⟩).fmt.supported = false := by decide

theorem witness_StepPutsOutTheFunctionOfTheInputs :
    (in32 2 1 0x3F800000 0x40000000).fmt.supported = true ∧ (in16 2 1 0x3C00 0x4000).fmt.supported = true := by decide

theorem witness_StepRunsTheDecodedCommand : decodeTableWord 8 0x6 = some (.fmul .rne) := by decide

theorem witness_EvaluationChangesOnlyTheOutputsAndIsIdempotent :
    exec (.fadd .rne) (in32 0 1 0x3F800000 0x40000000) =
      .next ((in32 0 1 0x3F800000 0x40000000).driven (0x40400000#32)) ∧
    step (in32 0 1 0x3F800000 0x40000000) = .next ((in32 0 1 0x3F800000 0x40000000).driven (0x40400000#32)) := by
  exact ⟨by rfl, by rfl⟩

theorem witness_ClassOutputsDoNotDependOnTheCommand : (in32 2 1 0x3F800000 0x40000000).fmt.supported = true := by decide

theorem witness_PresentStepSampleGivesTheFunctionOfTheInputs : (State.powerUp binary16).fmt.supported = true := by decide

/-- A change of one bit of `rm`. -/
theorem witness_OnlyAnInputChangeUnsettlesTheOutputs : (0b10#2) ≠ (in32 0 0 0x3F800000 0x40000000).rm := by decide

/-- R233: presenting the same inputs leaves settled outputs as they were. -/
theorem test_present_without_change_keeps_the_result :
    (((in32 0 1 0x3F800000 0x40000000).driven (0x40400000#32)).present 0 1 0x3F800000 0x40000000).y = (0x40400000#32) := by rfl

/-- A settled state: 1 + 2 = 3 under RNE on the outputs. -/
theorem witness_EveryStepAndEveryPresentKeepsTheStateGood :
    ((in32 0 1 0x3F800000 0x40000000).driven (0x40400000#32)).Good ∧
    ((in32 0 1 0x3F800000 0x40000000).driven (0x40400000#32)).settled = true := by
  exact ⟨⟨by decide, fun _ => ⟨by rfl, by decide, by decide, by decide⟩⟩, rfl⟩

end Sys2Proof.Tests
end

namespace Sys2Proof.Proofs

open Sys2Proof Sys2Proof.Machine

/-- The legal pairs of R3, by their two widths. -/
theorem supported_mk_iff (e m : Nat) :
    (Fmt.mk e m).supported = true ↔ (e = 5 ∧ m = 10) ∨ (e = 8 ∧ m = 23) := by
  rw [Fmt.supported_iff, Fmt.mk.injEq, Fmt.mk.injEq]

/-- R3 for a command: whichever datapath it selects, it ends in `drive`, and `drive` refuses the build. -/
theorem exec_of_unsupported (i : Instr) {s : State} (h : s.fmt.supported = false) :
    exec i s = .refused (.unsupportedFormat s.fmt.ebits s.fmt.mbits) := by
  obtain ⟨y, hy⟩ := exec_eq_drive i s
  exact hy.trans (drive_of_unsupported y h)

/-- R3 for the step, whatever command is on the ports. -/
theorem step_of_unsupported {s : State} (h : s.fmt.supported = false) :
    step s = .refused (.unsupportedFormat s.fmt.ebits s.fmt.mbits) :=
  (step_def s).trans (exec_of_unsupported s.command h)

/-- Settles O48: every command ends in `drive`, which is where the format is checked, and the step is the command on the ports. -/
theorem otherFormatsAreRefused : Obligations.OtherFormatsAreRefused :=
  ⟨supported_mk_iff, fun _ h => ⟨fun i => exec_of_unsupported i h, step_of_unsupported h⟩⟩

end Sys2Proof.Proofs

namespace Sys2Proof.Proofs

open Sys2Proof Sys2Proof.Machine

/-! ### The fields of an encoding -/

/-- R82, the way the datapath uses it: the fields an encoding was made of are read back. -/
@[simp] theorem fpDecode_fpEncode (f : Fmt) (v : Fields f) : fpDecode f (fpEncode f v) = v := by
  obtain ⟨s, e, m⟩ := v
  rw [fpDecode, fpEncode, Fields.mk.injEq]
  refine ⟨?_, ?_, BitVec.extractLsb'_append_eq_right⟩
  · rw [← BitVec.msb_eq_getLsbD_last]
    simp [BitVec.msb_append]
  · rw [BitVec.extractLsb'_append_eq_of_le le_rfl, Nat.sub_self, BitVec.extractLsb'_append_eq_right]

@[simp] theorem expOf_pack (f : Fmt) (s : Bool) (e m : Nat) : expOf f (pack f s e m) = e % 2 ^ f.ebits := by
  simp [expOf, pack]

@[simp] theorem manOf_pack (f : Fmt) (s : Bool) (e m : Nat) : manOf f (pack f s e m) = m % 2 ^ f.mbits := by
  simp [manOf, pack]

theorem expOf_le_emaxc (f : Fmt) (x : BitVec f.W) : expOf f x ≤ f.emaxc :=
  Nat.le_sub_one_of_lt (fpDecode f x).e.isLt

theorem one_lt_emaxc {f : Fmt} (h : f.supported = true) : 1 < f.emaxc := by
  obtain rfl | rfl := f.supported_iff.mp h <;> decide

theorem qbit_lt_mbits {f : Fmt} (h : f.supported = true) : f.qbit < f.mbits := by
  obtain rfl | rfl := f.supported_iff.mp h <;> decide

theorem bit_eq_testBit (v i : Nat) : bit v i = v.testBit i := by
  rw [bit, Nat.testBit_eq_decide_div_mod_eq, beq_eq_decide]

/-! ### The class outputs -/

/-- R84: the exponent decides between three pairs of classes and, at its two ends, the mantissa decides within the pair. -/
theorem classes_sum_eq_one {f : Fmt} (h : f.supported = true) (x : BitVec f.W) :
    b2n (isZero f x) + b2n (isSubnormal f x) + b2n (isNormal f x) + b2n (isInf f x) + b2n (isNaN f x) = 1 := by
  have hmax := one_lt_emaxc h
  obtain he | he | he : expOf f x = 0 ∨ (0 < expOf f x ∧ expOf f x < f.emaxc) ∨ expOf f x = f.emaxc := by
    have := expOf_le_emaxc f x
    omega
  · have : 0 ≠ f.emaxc := by omega
    by_cases hm : manOf f x = 0 <;> simp [isZero, isSubnormal, isNormal, isInf, isNaN, b2n, he, hm, this]
  · simp [isZero, isSubnormal, isNormal, isInf, isNaN, b2n, he.1, he.2, he.1.ne', he.2.ne]
  · have : f.emaxc ≠ 0 := by omega
    by_cases hm : manOf f x = 0 <;> simp [isZero, isSubnormal, isNormal, isInf, isNaN, b2n, he, hm, this]

/-- A class output of six given bits is well formed when one class bit is set, and the quiet bit only beside the NaN bit. -/
theorem classOk_of_bits : ∀ q n i o s z : Bool, b2n z + b2n s + b2n o + b2n i + b2n n = 1 → (q = true → n = true) →
    classOk (BitVec.ofBool q ++ BitVec.ofBool n ++ BitVec.ofBool i ++ BitVec.ofBool o ++ BitVec.ofBool s ++
      BitVec.ofBool z) = true := by
  decide

theorem isNaN_of_isQuiet {f : Fmt} {x : BitVec f.W} (h : isQuiet f x = true) : isNaN f x = true :=
  (Bool.and_eq_true_iff.mp h).1

/-- R92 for every operand. -/
theorem classOk_fpClassify {f : Fmt} (h : f.supported = true) (x : BitVec f.W) : classOk (fpClassify f x) = true :=
  classOk_of_bits _ _ _ _ _ _ (classes_sum_eq_one h x) isNaN_of_isQuiet

/-! ### Quiet NaNs -/

/-- R215 for one encoding: if it is a NaN, it is a quiet one. It is what `State.Good` asks of `y`. -/
def NanIsQuiet (f : Fmt) (y : BitVec f.W) : Prop := isNaN f y = true → isQuiet f y = true

theorem nanIsQuiet_of_not_nan {f : Fmt} {y : BitVec f.W} (h : isNaN f y = false) : NanIsQuiet f y :=
  fun hy => absurd hy (by simp [h])

theorem nanIsQuiet_of_qbit {f : Fmt} {y : BitVec f.W} (h : bit (manOf f y) f.qbit = true) : NanIsQuiet f y :=
  fun hy => Bool.and_eq_true_iff.mpr ⟨hy, h⟩

/-- `quiet` sets the bit that makes a NaN quiet. -/
theorem nanIsQuiet_quiet {f : Fmt} (h : f.supported = true) (x : BitVec f.W) : NanIsQuiet f (quiet f x) := by
  apply nanIsQuiet_of_qbit
  have hq := qbit_lt_mbits h
  have hW : f.qbit < f.W := by unfold Fmt.W; omega
  rw [bit_eq_testBit, manOf, fpDecode, BitVec.testBit_toNat]
  simp [quiet, hq, hW, BitVec.getLsbD_ofNat, -BitVec.ofNat_pow, -BitVec.getLsbD_eq_getElem]

theorem nanIsQuiet_cnan {f : Fmt} (h : f.supported = true) : NanIsQuiet f (cnan f) := by
  apply nanIsQuiet_of_qbit
  rw [bit_eq_testBit, cnan, manOf_pack, Nat.mod_eq_of_lt (Nat.pow_lt_pow_right (by decide) (qbit_lt_mbits h))]
  exact Nat.testBit_two_pow_self

/-! ### What the datapath can put out is no NaN -/

theorem isNaN_pack_of_exp_lt {f : Fmt} {e : Nat} (s : Bool) (m : Nat) (h : e < f.emaxc) :
    isNaN f (pack f s e m) = false := by
  have he : e % 2 ^ f.ebits = e := Nat.mod_eq_of_lt (by unfold Fmt.emaxc at h; omega)
  simp [isNaN, he, h.ne]

theorem isNaN_zero {f : Fmt} (h : f.supported = true) (s : Bool) : isNaN f (zero f s) = false :=
  isNaN_pack_of_exp_lt s 0 (one_lt_emaxc h).le

theorem isNaN_maxf {f : Fmt} (h : f.supported = true) (s : Bool) : isNaN f (maxf f s) = false :=
  isNaN_pack_of_exp_lt s _ (Nat.sub_one_lt_of_lt (one_lt_emaxc h))

theorem isNaN_inf (f : Fmt) (s : Bool) : isNaN f (inf f s) = false := by
  simp [isNaN, inf]

theorem isNaN_ovf {f : Fmt} (h : f.supported = true) (s : Bool) (rm : RoundingMode) : isNaN f (ovf f s rm) = false := by
  obtain hi | hm := ovf_eq_or f s rm
  · rw [hi, isNaN_inf]
  · rw [hm, isNaN_maxf h]

/-- R215: the resolver's answer is an overflow result, which is no NaN, or has an exponent below `EMAXC`. -/
theorem isNaN_fpResolve {f : Fmt} (h : f.supported = true) (s : Bool) (e : Int) (sig xb : Nat) (sin : Bool)
    (rm : RoundingMode) : isNaN f (fpResolve f s e sig xb sin rm) = false := by
  obtain hr | hr | ⟨t, hr⟩ | ⟨h0, he, hr⟩ := fpResolve_cases f s e sig xb sin rm <;> rw [hr]
  · exact isNaN_ovf h s rm
  · exact isNaN_pack_of_exp_lt s 0 (one_lt_emaxc h)
  · exact isNaN_pack_of_exp_lt s t (one_lt_emaxc h).le
  · exact isNaN_pack_of_exp_lt s _ (by omega)

theorem isNaN_roundThenResolve {f : Fmt} (h : f.supported = true) (s : Bool) (e : Int) (sig : Nat) (rb sb : Bool)
    (rm : RoundingMode) : isNaN f (roundThenResolve f s e sig rb sb rm) = false :=
  isNaN_fpResolve h ..

theorem isNaN_roundOrDefer {f : Fmt} (h : f.supported = true) (s : Bool) (e : Int) (wide : Nat) (sb : Bool)
    (rm : RoundingMode) : isNaN f (roundOrDefer f s e wide sb rm) = false := by
  by_cases he : 0 < e
  · rw [roundOrDefer_of_pos s wide sb rm he, isNaN_roundThenResolve h]
  · rw [roundOrDefer_of_nonpos s wide sb rm (not_lt.mp he), isNaN_fpResolve h]

theorem isNaN_mulFinite {f : Fmt} (h : f.supported = true) (a b : BitVec f.W) (rm : RoundingMode) :
    isNaN f (mulFinite f a b rm) = false :=
  isNaN_roundOrDefer h ..

theorem isNaN_divFinite {f : Fmt} (h : f.supported = true) (a b : BitVec f.W) (rm : RoundingMode) :
    isNaN f (divFinite f a b rm) = false :=
  isNaN_roundOrDefer h ..

/-- The far path and a nonzero near sum end in the resolver, and a cancelled near sum is a zero. -/
theorem isNaN_addFinite {f : Fmt} (h : f.supported = true) (a b : BitVec f.W) (rm : RoundingMode) :
    isNaN f (addFinite f a b rm) = false := by
  simp only [addFinite]
  split_ifs
  · exact isNaN_roundThenResolve h ..
  · exact isNaN_zero h _
  · exact isNaN_roundThenResolve h ..

/-- A zero operand gives a zero or one of the two operands. -/
theorem isNaN_addZero {f : Fmt} (h : f.supported = true) {a b : BitVec f.W} (rm : RoundingMode)
    (ha : isNaN f a = false) (hb : isNaN f b = false) : isNaN f (addZero f a b rm) = false := by
  unfold addZero
  split_ifs
  · exact isNaN_zero h _
  · exact hb
  · exact ha

theorem isNaN_addOrdered {f : Fmt} (h : f.supported = true) {a b : BitVec f.W} (rm : RoundingMode)
    (ha : isNaN f a = false) (hb : isNaN f b = false) : isNaN f (addOrdered f a b rm) = false := by
  unfold addOrdered
  split_ifs
  · exact isNaN_addZero h rm ha hb
  · exact isNaN_addFinite h a b rm

/-! ### R215 for each component, along its dispatch -/

theorem nanIsQuiet_fpAdder {f : Fmt} (h : f.supported = true) (a b : BitVec f.W) (rm : RoundingMode) :
    NanIsQuiet f (fpAdder f a b rm) := by
  unfold fpAdder
  split_ifs with ha hb
  · exact nanIsQuiet_quiet h a
  · exact nanIsQuiet_quiet h b
  all_goals rw [Bool.not_eq_true] at ha hb
  · exact nanIsQuiet_of_not_nan ha
  · exact nanIsQuiet_cnan h
  · exact nanIsQuiet_of_not_nan ha
  · exact nanIsQuiet_of_not_nan hb
  · exact nanIsQuiet_of_not_nan (isNaN_addOrdered h rm hb ha)
  · exact nanIsQuiet_of_not_nan (isNaN_addOrdered h rm ha hb)

theorem nanIsQuiet_fpMultiplier {f : Fmt} (h : f.supported = true) (a b : BitVec f.W) (rm : RoundingMode) :
    NanIsQuiet f (fpMultiplier f a b rm) := by
  unfold fpMultiplier
  split_ifs
  · exact nanIsQuiet_quiet h a
  · exact nanIsQuiet_quiet h b
  · exact nanIsQuiet_cnan h
  · exact nanIsQuiet_of_not_nan (isNaN_zero h _)
  · exact nanIsQuiet_of_not_nan (isNaN_inf f _)
  · exact nanIsQuiet_of_not_nan (isNaN_mulFinite h a b rm)

theorem nanIsQuiet_fpDivider {f : Fmt} (h : f.supported = true) (a b : BitVec f.W) (rm : RoundingMode) :
    NanIsQuiet f (fpDivider f a b rm) := by
  unfold fpDivider
  split_ifs
  · exact nanIsQuiet_cnan h
  · exact nanIsQuiet_quiet h a
  · exact nanIsQuiet_quiet h b
  · exact nanIsQuiet_of_not_nan (isNaN_inf f _)
  · exact nanIsQuiet_of_not_nan (isNaN_zero h _)
  · exact nanIsQuiet_of_not_nan (isNaN_zero h _)
  · exact nanIsQuiet_of_not_nan (isNaN_inf f _)
  · exact nanIsQuiet_of_not_nan (isNaN_divFinite h a b rm)

/-- R215 for the block, whatever is on `op` and `rm`. -/
theorem nanIsQuiet_fpCoreY {f : Fmt} (h : f.supported = true) (op rm : BitVec 2) (a b : BitVec f.W) :
    NanIsQuiet f (fpCoreY f op rm a b) := by
  unfold fpCoreY
  split_ifs
  · exact nanIsQuiet_fpAdder h a b _
  · exact nanIsQuiet_fpAdder h a (neg f b) _
  · exact nanIsQuiet_fpMultiplier h a b _
  · exact nanIsQuiet_fpDivider h a b _

/-! ### The step -/

/-- The step drives R32's function of the raw ports: the decoder and `fpCoreY` split on the same values of `op`. -/
theorem step_eq_drive_fpCoreY (s : State) : step s = drive s (fpCoreY s.fmt s.op s.rm s.a s.b) := by
  rw [step_def, State.command, decodePorts, fpCoreY]
  split_ifs
  · exact exec_fadd ..
  · exact exec_fsub ..
  · exact exec_fmul ..
  · exact exec_fdiv ..

theorem step_of_supported {s : State} (h : s.fmt.supported = true) :
    step s = .next (s.driven (fpCoreY s.fmt s.op s.rm s.a s.b)) :=
  (step_eq_drive_fpCoreY s).trans (drive_of_supported _ h)

theorem exec_of_supported (i : Instr) {s : State} (h : s.fmt.supported = true) :
    ∃ y, exec i s = .next (s.driven y) := by
  obtain ⟨y, hy⟩ := exec_eq_drive i s
  exact ⟨y, hy.trans (drive_of_supported y h)⟩

/-- Settles O49: the step drives `fpCoreY` of the ports and the classes of the operands, which is `fpCore`. -/
theorem stepPutsOutTheFunctionOfTheInputs : Obligations.StepPutsOutTheFunctionOfTheInputs :=
  fun _ h => step_of_supported h

/-- Settles O53: both commands end in a driven state, whose class outputs are those of the operands whatever `y` is. -/
theorem classOutputsDoNotDependOnTheCommand : Obligations.ClassOutputsDoNotDependOnTheCommand := by
  intro s i j h
  obtain ⟨y, hi⟩ := exec_of_supported i h
  obtain ⟨z, hj⟩ := exec_of_supported j h
  exact ⟨_, _, hi, hj, s.driven_clsA y, s.driven_clsB y, rfl, rfl⟩

/-! ### The invariant -/

/-- A legal build that has just been evaluated is good. -/
theorem good_driven_fpCoreY {s : State} (h : s.fmt.supported = true) :
    (s.driven (fpCoreY s.fmt s.op s.rm s.a s.b)).Good :=
  ⟨h, fun _ => ⟨s.sample_driven _, classOk_fpClassify h s.a, classOk_fpClassify h s.b,
    nanIsQuiet_fpCoreY h s.op s.rm s.a s.b⟩⟩

/-- R233, R34: presenting the values already on the ports leaves the state as it was. -/
theorem present_of_unchanged {s : State} {op rm : BitVec 2} {a b : BitVec s.fmt.W}
    (h : s.changedBy op rm a b = false) : s.present op rm a b = s := by
  obtain ⟨rfl, rfl, rfl, rfl⟩ := (s.changedBy_eq_false ..).mp h
  simp [State.present, h]

/-- After a change nothing has settled, so nothing is asked of the outputs; with no change the state is the old one. -/
theorem good_present {s : State} (h : s.Good) (op rm : BitVec 2) (a b : BitVec s.fmt.W) :
    (s.present op rm a b).Good := by
  cases hc : s.changedBy op rm a b with
  | false => rwa [present_of_unchanged hc]
  | true => exact ⟨h.1, fun hs => by simp [hc] at hs⟩

/-- Settles O55: the step's only answer is the driven state, which is good in every legal build, and presenting keeps a good state good. -/
theorem everyStepAndEveryPresentKeepsTheStateGood : Obligations.EveryStepAndEveryPresentKeepsTheStateGood := by
  intro s h
  have hf := h.1
  have hstep := step_of_supported hf
  refine ⟨fun t ht => ?_, ⟨_, hstep⟩, good_present h⟩
  obtain rfl : _ = t := Host.Outcome.next.inj (hstep.symm.trans ht)
  exact good_driven_fpCoreY hf

end Sys2Proof.Proofs

namespace Sys2Proof.Proofs

open Sys2Proof Sys2Proof.Machine

/-! ### The outputs are not read -/

section

variable (s : State) (y : BitVec s.fmt.W) (ca cb : BitVec 6) (st : Bool)

/-- `drive` looks at the format alone, and driving overwrites every output and the settled bit. -/
theorem drive_setOutputs (z : BitVec s.fmt.W) :
    drive { s with y := y, clsA := ca, clsB := cb, settled := st } z = drive s z := rfl

/-- R47: a command computes its result from the format and the operands, and `drive` does not read the outputs. -/
theorem exec_setOutputs (i : Instr) :
    exec i { s with y := y, clsA := ca, clsB := cb, settled := st } = exec i s := by
  cases i with
  | fadd rm => exact drive_setOutputs s y ca cb st (fpAdder s.fmt s.a s.b rm)
  | fsub rm => exact drive_setOutputs s y ca cb st (fpSub s.fmt s.a s.b rm)
  | fmul rm => exact drive_setOutputs s y ca cb st (fpMultiplier s.fmt s.a s.b rm)
  | fdiv rm => exact drive_setOutputs s y ca cb st (fpDivider s.fmt s.a s.b rm)

/-- The command is on the input ports, so the step reads no output either. -/
theorem step_setOutputs :
    step { s with y := y, clsA := ca, clsB := cb, settled := st } = step s :=
  exec_setOutputs s y ca cb st s.command

end

/-! ### The frame of an evaluation -/

/-- A command that answers a next state answers the driven one: the format, the inputs and the draws stay. -/
theorem exec_eq_next {s t : State} {i : Instr} (h : exec i s = .next t) : ∃ y, t = s.driven y := by
  obtain ⟨y, hy⟩ := exec_eq_drive i s
  exact ⟨y, (drive_eq_next (hy.symm.trans h)).2⟩

/-- R45: the next state differs from the one before in the outputs alone, so the command answers there as before. -/
theorem exec_idem {s t : State} {i : Instr} (h : exec i s = .next t) : exec i t = .next t := by
  obtain ⟨y, rfl⟩ := exec_eq_next h
  exact (exec_setOutputs s y _ _ true i).trans h

/-- R45 for the step: the next state has the same command on its ports. -/
theorem step_idem {s t : State} (h : step s = .next t) : step t = .next t := by
  obtain ⟨y, rfl⟩ := exec_eq_next h
  exact exec_idem h

/-- Settles O51: the next state is the driven one, which is the state before with other outputs, and no command reads an output. -/
theorem evaluationChangesOnlyTheOutputsAndIsIdempotent :
    Obligations.EvaluationChangesOnlyTheOutputsAndIsIdempotent := by
  refine ⟨fun s t i h => ⟨?_, exec_idem h⟩, fun _ _ h => step_idem h⟩
  obtain ⟨y, rfl⟩ := exec_eq_next h
  exact ⟨y, _, _, rfl⟩

/-- Settles O52: the step reads the format and the input ports only. -/
theorem stepDoesNotDependOnEarlierCommands : Obligations.StepDoesNotDependOnEarlierCommands :=
  step_setOutputs

end Sys2Proof.Proofs

namespace Sys2Proof.Proofs

open Sys2Proof Sys2Proof.Machine

/-! ### The command word and its two fields -/

@[simp] theorem cmdOp_cmdOf (op rm : BitVec 2) : cmdOp (cmdOf op rm) = op :=
  BitVec.extractLsb'_append_eq_right

@[simp] theorem cmdMode_cmdOf (op rm : BitVec 2) : cmdMode (cmdOf op rm) = rm :=
  BitVec.extractLsb'_append_eq_left

/-- R60: decoding the word made of two ports is decoding the ports. -/
@[simp] theorem decodeCmd_cmdOf (op rm : BitVec 2) : decodeCmd (cmdOf op rm) = decodePorts op rm := by
  rw [decodeCmd, cmdOp_cmdOf, cmdMode_cmdOf]

/-- R63: the four mode codes are the codes of the four modes. -/
@[simp] theorem encodeMode_decodeMode : ∀ rm : BitVec 2, encodeMode (decodeMode rm) = rm := by
  decide

/-- R62: the four operation codes are the codes of the four operations, whatever the mode. -/
@[simp] theorem encodeOp_decodePorts : ∀ op rm : BitVec 2, encodeOp (decodePorts op rm) = op := by
  decide

/-- The operation does not touch the mode. -/
@[simp] theorem mode_decodePorts (op rm : BitVec 2) : (decodePorts op rm).mode = decodeMode rm := by
  unfold decodePorts
  split_ifs <;> rfl

/-- R60, R64: the word of the command on two ports is the word made of the ports. -/
@[simp] theorem encodeCmd_decodePorts (op rm : BitVec 2) : encodeCmd (decodePorts op rm) = cmdOf op rm := by
  rw [encodeCmd, encodeOp_decodePorts, mode_decodePorts, encodeMode_decodeMode]

/-- Settles O1: sixteen closed rows, each computed by the decoder. -/
theorem commandWordsDecodeByTheOpcodeMap : Obligations.CommandWordsDecodeByTheOpcodeMap := by
  unfold Obligations.CommandWordsDecodeByTheOpcodeMap
  decide

/-! ### A command word presented by the host -/

/-- Log entry 6: a byte the decoder accepts is the command of its low four bits. -/
theorem eq_decodeCmd_of_decode_singleton {b : BitVec 8} {i : Instr} {rest : List (BitVec 8)} (h : decode [b] = .ok (i, rest)) :
    i = decodeCmd (b.setWidth 4) := by
  by_cases hb : b.toNat < 16
  · obtain ⟨hi, -⟩ : decodeCmd (b.setWidth 4) = i ∧ [] = rest := by simpa [decode, hb] using h
    exact hi.symm
  · simp [decode, hb] at h

/-- Log entry 6: a word the host's decoder accepts is the command of its low four bits. -/
theorem eq_decodeCmd_of_decodeTableWord {nbits w : Nat} {i : Instr} (h : decodeTableWord nbits w = some i) :
    i = decodeCmd (BitVec.ofNat 4 (w % 2 ^ nbits)) := by
  unfold decodeTableWord at h
  split_ifs at h
  split at h
  next j rest hj =>
    obtain rfl := Option.some.inj h
    rw [eq_decodeCmd_of_decode_singleton hj, BitVec.setWidth_ofNat_of_le (by decide)]
  next => cases h

/-- R22: after the host presents a command word, the command on the ports is the one the word decodes to. -/
theorem command_presentCmd (s : State) (cmd : BitVec 4) : (s.presentCmd cmd).command = decodeCmd cmd := rfl

/-- R60, R22: the step decodes the word on its ports. -/
theorem step_eq_exec_decodeCmd (s : State) : step s = exec (decodeCmd (cmdOf s.op s.rm)) s := by
  rw [decodeCmd_cmdOf, step_def, State.command]

/-- Settles O50: the ports after presenting a word are the two fields of the command it decodes to, and the step runs the command on the ports. -/
theorem stepRunsTheDecodedCommand : Obligations.StepRunsTheDecodedCommand := by
  refine ⟨step_eq_exec_decodeCmd, fun s nbits w i h => ?_⟩
  obtain rfl := eq_decodeCmd_of_decodeTableWord h
  refine ⟨?_, _, _, (encodeCmd_decodePorts ..).symm, rfl⟩
  rw [step_def, State.withFetchWord, command_presentCmd]

end Sys2Proof.Proofs

namespace Sys2Proof.Proofs

open Sys2Proof Sys2Proof.Machine

/-! ### The three fields and the round trip -/

/-- The sign bit's position, above the other two fields (00_scope.md R9). -/
theorem W_sub_one (f : Fmt) : f.W - 1 = f.ebits + f.mbits := by
  unfold Fmt.W
  omega

/-- R80: the sign is the bit above the exponent field. -/
theorem signOf_eq_bit (f : Fmt) (x : BitVec f.W) : signOf f x = bit x.toNat (f.ebits + f.mbits) := by
  rw [signOf_eq_getLsbD, bit_eq_testBit, BitVec.testBit_toNat, W_sub_one]

theorem expOf_eq_div_mod (f : Fmt) (x : BitVec f.W) : expOf f x = x.toNat / 2 ^ f.mbits % 2 ^ f.ebits := by
  rw [expOf, fpDecode, BitVec.extractLsb'_toNat, Nat.shiftRight_eq_div_pow]

theorem manOf_eq_mod (f : Fmt) (x : BitVec f.W) : manOf f x = x.toNat % 2 ^ f.mbits := by
  rw [manOf, fpDecode, BitVec.extractLsb'_toNat, Nat.shiftRight_zero]

theorem ofBool_getLsbD {w : Nat} (x : BitVec w) (i : Nat) : BitVec.ofBool (x.getLsbD i) = x.extractLsb' i 1 := by
  refine BitVec.eq_of_getLsbD_eq fun j hj => ?_
  obtain rfl : j = 0 := by omega
  simp

/-- R82: the three fields are adjacent slices that together are the whole word. -/
@[simp] theorem fpEncode_fpDecode (f : Fmt) (x : BitVec f.W) : fpEncode f (fpDecode f x) = x := by
  rw [fpEncode, fpDecode, ofBool_getLsbD, W_sub_one, Nat.add_comm f.ebits,
    BitVec.extractLsb'_append_extractLsb'_eq_extractLsb' rfl, BitVec.extractLsb'_append_extractLsb']

/-- Settles O3: each field is a slice of the word, read as a number. -/
theorem decodeReadsTheThreeFields : Obligations.DecodeReadsTheThreeFields :=
  ⟨fun f x => ⟨signOf_eq_bit f x, expOf_eq_div_mod f x, manOf_eq_mod f x⟩, by decide⟩

/-- Settles O5: the fields are the slices of the word, and the word of some fields has them as its slices. -/
theorem operandEncodingRoundTrips : Obligations.OperandEncodingRoundTrips :=
  fun f => ⟨fpEncode_fpDecode f, fpDecode_fpEncode f⟩

/-- Settles O11: `pack` computes each pattern of R91's table. -/
theorem namedConstantsHaveTheirBitPatterns : Obligations.NamedConstantsHaveTheirBitPatterns := by
  unfold Obligations.NamedConstantsHaveTheirBitPatterns
  decide

/-- Settles O6: the exponent and then the mantissa pick one class. -/
theorem everyValueIsInExactlyOneClass : Obligations.EveryValueIsInExactlyOneClass :=
  fun _ x h => classes_sum_eq_one h x

/-! ### `neg`: the sign bit and nothing else -/

/-- R88, bit by bit. -/
theorem getLsbD_neg (f : Fmt) (x : BitVec f.W) {i : Nat} (hi : i < f.W) :
    (neg f x).getLsbD i = (x.getLsbD i ^^ (i == f.W - 1)) := by
  rw [neg, BitVec.getLsbD_xor, BitVec.getLsbD_ofNat, Nat.testBit_two_pow, decide_eq_true hi, Bool.true_and,
    beq_eq_decide, decide_eq_decide.mpr eq_comm]

/-- A bit below the sign bit stays. -/
theorem getLsbD_neg_of_lt (f : Fmt) (x : BitVec f.W) {i : Nat} (hi : i < f.ebits + f.mbits) :
    (neg f x).getLsbD i = x.getLsbD i := by
  have hne : i ≠ f.W - 1 := by unfold Fmt.W; omega
  rw [getLsbD_neg f x (by unfold Fmt.W; omega), beq_false_of_ne hne, Bool.xor_false]

@[simp] theorem signOf_neg (f : Fmt) (x : BitVec f.W) : signOf f (neg f x) = !signOf f x := by
  have hlast : f.W - 1 < f.W := by unfold Fmt.W; omega
  rw [signOf_eq_getLsbD, signOf_eq_getLsbD, getLsbD_neg f x hlast, beq_self_eq_true, Bool.xor_true]

@[simp] theorem expOf_neg (f : Fmt) (x : BitVec f.W) : expOf f (neg f x) = expOf f x := by
  refine congrArg BitVec.toNat (BitVec.eq_of_getLsbD_eq fun i hi => ?_)
  simp only [fpDecode, BitVec.getLsbD_extractLsb', getLsbD_neg_of_lt f x (i := f.mbits + i) (by omega)]

@[simp] theorem manOf_neg (f : Fmt) (x : BitVec f.W) : manOf f (neg f x) = manOf f x := by
  refine congrArg BitVec.toNat (BitVec.eq_of_getLsbD_eq fun i hi => ?_)
  simp only [fpDecode, BitVec.getLsbD_extractLsb', getLsbD_neg_of_lt f x (i := 0 + i) (by omega)]

/-! The classes read the exponent and the mantissa only (R83, R85), so `neg` keeps each of them. -/

@[simp] theorem isZero_neg (f : Fmt) (x : BitVec f.W) : isZero f (neg f x) = isZero f x := by simp [isZero]
@[simp] theorem isSubnormal_neg (f : Fmt) (x : BitVec f.W) : isSubnormal f (neg f x) = isSubnormal f x := by
  simp [isSubnormal]
@[simp] theorem isNormal_neg (f : Fmt) (x : BitVec f.W) : isNormal f (neg f x) = isNormal f x := by simp [isNormal]
@[simp] theorem isInf_neg (f : Fmt) (x : BitVec f.W) : isInf f (neg f x) = isInf f x := by simp [isInf]
@[simp] theorem isNaN_neg (f : Fmt) (x : BitVec f.W) : isNaN f (neg f x) = isNaN f x := by simp [isNaN]
@[simp] theorem isQuiet_neg (f : Fmt) (x : BitVec f.W) : isQuiet f (neg f x) = isQuiet f x := by simp [isQuiet]

@[simp] theorem signFactor_not (s : Bool) : signFactor (!s) = -signFactor s := by
  cases s <;> simp [signFactor]

/-- R88 with R90: the class and the two lower fields stay, and the sign's factor changes sign. -/
theorem value?_neg (f : Fmt) (x : BitVec f.W) : value? f (neg f x) = (value? f x).map fun v => -v := by
  simp only [value?, isZero_neg, isSubnormal_neg, isNormal_neg, signOf_neg, expOf_neg, manOf_neg, signFactor_not]
  split_ifs <;> simp

/-- Settles O9: one bit of the word changes, and of the fields the value is made of only the sign. -/
theorem negFlipsTheSignBitAndNothingElse : Obligations.NegFlipsTheSignBitAndNothingElse :=
  fun f x => ⟨fun _ hi => getLsbD_neg f x hi, value?_neg f x⟩

/-! ### The class output -/

/-- R92's layout: bit by bit, the concatenation in `fpClassify`. -/
theorem getLsbD_classBits : ∀ q n i o s z : Bool,
    let c := BitVec.ofBool q ++ BitVec.ofBool n ++ BitVec.ofBool i ++ BitVec.ofBool o ++ BitVec.ofBool s ++ BitVec.ofBool z
    c.getLsbD 0 = z ∧ c.getLsbD 1 = s ∧ c.getLsbD 2 = o ∧ c.getLsbD 3 = i ∧ c.getLsbD 4 = n ∧ c.getLsbD 5 = q := by
  decide

/-- R92: the sign does not enter. -/
@[simp] theorem fpClassify_neg (f : Fmt) (x : BitVec f.W) : fpClassify f (neg f x) = fpClassify f x := by
  simp [fpClassify]

/-- Settles O7: the layout, the one-hot invariant `classOk_fpClassify`, and `neg` keeping every class. -/
theorem classOutputIsOneHotAndIgnoresTheSign : Obligations.ClassOutputIsOneHotAndIgnoresTheSign := by
  refine ⟨fun f x h => ?_, by decide, by decide, by decide⟩
  obtain ⟨hz, hs, ho, hi, hn, hq⟩ := getLsbD_classBits (isQuiet f x) (isNaN f x) (isInf f x) (isNormal f x)
    (isSubnormal f x) (isZero f x)
  exact ⟨hz, hs, ho, hi, hn, hq, classOk_fpClassify h x, fpClassify_neg f x⟩

/-! ### `quiet`: the quiet bit and nothing else -/

/-- R87, bit by bit. -/
theorem getLsbD_quiet {f : Fmt} (h : f.supported = true) (x : BitVec f.W) (i : Nat) :
    (quiet f x).getLsbD i = (x.getLsbD i || i == f.qbit) := by
  have hq := qbit_lt_mbits h
  have hbit : (decide (i < f.W) && decide (f.qbit = i)) = (i == f.qbit) := by
    rw [beq_eq_decide, ← Bool.decide_and, decide_eq_decide]
    unfold Fmt.W
    omega
  rw [quiet, BitVec.getLsbD_or, BitVec.getLsbD_ofNat, Nat.testBit_two_pow, hbit]

/-- A bit outside the mantissa field stays. -/
theorem getLsbD_quiet_of_mbits_le {f : Fmt} (h : f.supported = true) (x : BitVec f.W) {i : Nat} (hi : f.mbits ≤ i) :
    (quiet f x).getLsbD i = x.getLsbD i := by
  have hne : i ≠ f.qbit := ((qbit_lt_mbits h).trans_le hi).ne'
  rw [getLsbD_quiet h, beq_false_of_ne hne, Bool.or_false]

theorem signOf_quiet {f : Fmt} (h : f.supported = true) (x : BitVec f.W) : signOf f (quiet f x) = signOf f x :=
  getLsbD_quiet_of_mbits_le h x (by unfold Fmt.W; omega)

theorem expOf_quiet {f : Fmt} (h : f.supported = true) (x : BitVec f.W) : expOf f (quiet f x) = expOf f x := by
  refine congrArg BitVec.toNat (BitVec.eq_of_getLsbD_eq fun i _ => ?_)
  simp only [fpDecode, BitVec.getLsbD_extractLsb', getLsbD_quiet_of_mbits_le h x (Nat.le_add_right f.mbits i)]

/-- R85: the top bit of the mantissa is bit `QBIT` of the word. -/
theorem bit_manOf_qbit {f : Fmt} (h : f.supported = true) (x : BitVec f.W) :
    bit (manOf f x) f.qbit = x.getLsbD f.qbit := by
  rw [bit_eq_testBit, manOf_eq_mod, Nat.testBit_mod_two_pow, decide_eq_true (qbit_lt_mbits h), Bool.true_and,
    BitVec.testBit_toNat]

/-- R87: a NaN stays a NaN, because the exponent stays and the mantissa has a bit set. -/
theorem isNaN_quiet {f : Fmt} (h : f.supported = true) {x : BitVec f.W} (hx : isNaN f x = true) :
    isNaN f (quiet f x) = true := by
  have hexp : expOf f x = f.emaxc := beq_iff_eq.mp (Bool.and_eq_true_iff.mp hx).1
  have hbit : bit (manOf f (quiet f x)) f.qbit = true := by
    rw [bit_manOf_qbit h, getLsbD_quiet h, beq_self_eq_true, Bool.or_true]
  have hman : manOf f (quiet f x) ≠ 0 := by
    intro h0
    simp [h0, bit] at hbit
  simp [isNaN, expOf_quiet h, hexp, hman]

/-- R87: the one bit `quiet` would set is set already. -/
theorem quiet_of_isQuiet {f : Fmt} (h : f.supported = true) {x : BitVec f.W} (hx : isQuiet f x = true) :
    quiet f x = x := by
  have hbit : x.getLsbD f.qbit = true := (bit_manOf_qbit h x).symm.trans (Bool.and_eq_true_iff.mp hx).2
  refine BitVec.eq_of_getLsbD_eq fun i _ => ?_
  rw [getLsbD_quiet h]
  by_cases hi : i = f.qbit
  · rw [hi, hbit, Bool.true_or]
  · rw [beq_false_of_ne hi, Bool.or_false]

/-- Settles O8: bit by bit, and from that what becomes of a NaN and of a quiet NaN. -/
theorem quietForcesTheQuietBitAndNothingElse : Obligations.QuietForcesTheQuietBitAndNothingElse :=
  ⟨fun _ x h => ⟨getLsbD_quiet h x,
    fun hx => ⟨nanIsQuiet_quiet h x (isNaN_quiet h hx), signOf_quiet h x⟩, quiet_of_isQuiet h⟩, by decide, by decide⟩

/-! ### `mag` and the order of magnitudes -/

theorem mag_eq_mod (f : Fmt) (x : BitVec f.W) : mag f x = x.toNat % (2 ^ f.mbits * 2 ^ f.ebits) := by
  rw [mag, low, W_sub_one, Nat.add_comm, pow_add]

/-- R89: the exponent field sits above the mantissa field, so it is the upper part of `mag`. -/
theorem mag_div (f : Fmt) (x : BitVec f.W) : mag f x / 2 ^ f.mbits = expOf f x := by
  rw [mag_eq_mod, Nat.mod_mul_right_div_self, expOf_eq_div_mod]

theorem mag_mod (f : Fmt) (x : BitVec f.W) : mag f x % 2 ^ f.mbits = manOf f x := by
  rw [mag_eq_mod, Nat.mod_mul_right_mod, manOf_eq_mod]

theorem mag_eq (f : Fmt) (x : BitVec f.W) : mag f x = 2 ^ f.mbits * expOf f x + manOf f x := by
  rw [← mag_div, ← mag_mod, Nat.div_add_mod]

/-- Numbers are ordered by quotient, then remainder. -/
theorem lt_iff_div_lt_or_mod_lt (n k p : Nat) :
    n < k ↔ n / p < k / p ∨ (n / p = k / p ∧ n % p < k % p) := by
  obtain h | h | h := lt_trichotomy (n / p) (k / p)
  · simp [h, Nat.lt_of_div_lt_div h]
  · have hn := Nat.div_add_mod n p
    have hk := Nat.div_add_mod k p
    rw [h] at hn
    omega
  · have := Nat.lt_of_div_lt_div h
    omega

/-- R89: comparing `mag` is comparing exponent, then mantissa. -/
theorem mag_lt_mag_iff (f : Fmt) (a b : BitVec f.W) :
    mag f b < mag f a ↔ expOf f b < expOf f a ∨ (expOf f b = expOf f a ∧ manOf f b < manOf f a) := by
  rw [lt_iff_div_lt_or_mod_lt (mag f b) (mag f a) (2 ^ f.mbits), mag_div, mag_div, mag_mod, mag_mod]

/-- The magnitude R90 gives a finite encoding, counted in units of the smallest subnormal, `2^(1 - BIAS - M)`. -/
def magUnits (f : Fmt) (x : BitVec f.W) : Nat :=
  if expOf f x = 0 then manOf f x else (2 ^ f.mbits + manOf f x) * 2 ^ (expOf f x - 1)

theorem manOf_lt (f : Fmt) (x : BitVec f.W) : manOf f x < 2 ^ f.mbits := (fpDecode f x).m.isLt

/-- An exponent's magnitudes lie below the least one of the next exponent. -/
theorem magUnits_lt (f : Fmt) (x : BitVec f.W) : magUnits f x < 2 ^ f.mbits * 2 ^ expOf f x := by
  have hm := manOf_lt f x
  unfold magUnits
  split_ifs with he
  · simpa [he] using hm
  · obtain ⟨k, hk⟩ := Nat.exists_eq_succ_of_ne_zero he
    rw [hk, Nat.succ_sub_one]
    calc
      (2 ^ f.mbits + manOf f x) * 2 ^ k < (2 ^ f.mbits + 2 ^ f.mbits) * 2 ^ k := by gcongr
      _ = 2 ^ f.mbits * 2 ^ (k + 1) := by ring

theorem le_magUnits {f : Fmt} {x : BitVec f.W} (he : expOf f x ≠ 0) :
    2 ^ f.mbits * 2 ^ (expOf f x - 1) ≤ magUnits f x := by
  rw [magUnits, if_neg he]
  exact Nat.mul_le_mul_right _ (Nat.le_add_right ..)

/-- Along `mag` the magnitude grows: within an exponent with the mantissa, and from an exponent to any greater one. -/
theorem magUnits_lt_magUnits {f : Fmt} {a b : BitVec f.W} (h : mag f b < mag f a) : magUnits f b < magUnits f a := by
  obtain he | ⟨he, hm⟩ := (mag_lt_mag_iff f a b).mp h
  · calc
      magUnits f b < 2 ^ f.mbits * 2 ^ expOf f b := magUnits_lt f b
      _ ≤ 2 ^ f.mbits * 2 ^ (expOf f a - 1) := by gcongr <;> omega
      _ ≤ magUnits f a := le_magUnits (Nat.ne_zero_of_lt he)
  · rw [magUnits, magUnits, he]
    split_ifs
    · exact hm
    · gcongr

/-- Equal `mag` means equal exponent and mantissa, so equal magnitude. -/
theorem magUnits_congr {f : Fmt} {a b : BitVec f.W} (h : mag f a = mag f b) : magUnits f a = magUnits f b := by
  rw [magUnits, magUnits, ← mag_div, ← mag_div, ← mag_mod, ← mag_mod, h]

theorem mag_lt_mag_iff_magUnits (f : Fmt) (a b : BitVec f.W) : mag f b < mag f a ↔ magUnits f b < magUnits f a := by
  refine ⟨magUnits_lt_magUnits, fun h => ?_⟩
  by_contra hle
  obtain heq | hlt := (not_lt.mp hle).eq_or_lt
  · exact h.ne' (magUnits_congr heq)
  · exact h.asymm (magUnits_lt_magUnits hlt)

/-! ### The value's magnitude -/

@[simp] theorem abs_signFactor (s : Bool) : |signFactor s| = 1 := by
  cases s <;> simp [signFactor]

/-- R90 on the fields: an encoding with a value has exponent 0 (a zero or a subnormal; a zero is `m = 0`), or is normal. -/
theorem value?_eq_some_cases {f : Fmt} {x : BitVec f.W} {v : ℚ} (h : value? f x = some v) :
    (expOf f x = 0 ∧ v = signFactor (signOf f x) * manOf f x * (2 : ℚ) ^ (1 - (f.bias : Int) - f.mbits)) ∨
    (0 < expOf f x ∧ expOf f x < f.emaxc ∧
      v = signFactor (signOf f x) * (2 ^ f.mbits + manOf f x : ℕ) * (2 : ℚ) ^ ((expOf f x : Int) - f.bias - f.mbits)) := by
  unfold value? at h
  split_ifs at h with hz hs hn <;> obtain rfl := Option.some.inj h
  · obtain ⟨he, hm⟩ : expOf f x = 0 ∧ manOf f x = 0 := by simpa [isZero] using hz
    exact .inl ⟨he, by simp [hm]⟩
  · obtain ⟨he, -⟩ : expOf f x = 0 ∧ manOf f x ≠ 0 := by simpa [isSubnormal] using hs
    exact .inl ⟨he, rfl⟩
  · obtain ⟨h0, hmax⟩ : 0 < expOf f x ∧ expOf f x < f.emaxc := by simpa [isNormal] using hn
    exact .inr ⟨h0, hmax, rfl⟩

/-- R90: `magUnits` counts the magnitude of the value. -/
theorem abs_of_value?_eq_some {f : Fmt} {x : BitVec f.W} {v : ℚ} (h : value? f x = some v) :
    |v| = magUnits f x * (2 : ℚ) ^ (1 - (f.bias : Int) - f.mbits) := by
  obtain ⟨he, rfl⟩ | ⟨h0, -, rfl⟩ := value?_eq_some_cases h
  · simp [magUnits, he, abs_mul, abs_zpow]
  · obtain ⟨k, hk⟩ := Nat.exists_eq_succ_of_ne_zero h0.ne'
    have hunits : magUnits f x = (2 ^ f.mbits + manOf f x) * 2 ^ k := by simp [magUnits, hk]
    have hexp : (expOf f x : Int) - f.bias - f.mbits = k + (1 - (f.bias : Int) - f.mbits) := by omega
    rw [hexp, zpow_add₀ two_ne_zero, zpow_natCast, hunits, Nat.cast_mul, Nat.cast_pow, Nat.cast_ofNat]
    simp only [abs_mul, abs_zpow, abs_pow, abs_signFactor, Nat.abs_cast, Nat.abs_ofNat]
    ring

/-- R90: an encoding that has a value is finite. -/
theorem expOf_lt_emaxc_of_value? {f : Fmt} (h : f.supported = true) {x : BitVec f.W} {v : ℚ}
    (hv : value? f x = some v) : expOf f x < f.emaxc := by
  obtain ⟨he, -⟩ | ⟨-, hmax, -⟩ := value?_eq_some_cases hv
  · exact he.trans_lt (Nat.zero_lt_of_lt (one_lt_emaxc h))
  · exact hmax

theorem isInf_iff (f : Fmt) (x : BitVec f.W) : isInf f x = true ↔ expOf f x = f.emaxc ∧ manOf f x = 0 := by
  simp [isInf]

/-- R89 for values: both magnitudes are counted in the same positive unit. -/
theorem mag_lt_mag_iff_abs_lt_abs {f : Fmt} {a b : BitVec f.W} {va vb : ℚ} (ha : value? f a = some va)
    (hb : value? f b = some vb) : mag f b < mag f a ↔ |vb| < |va| := by
  rw [abs_of_value?_eq_some ha, abs_of_value?_eq_some hb, mul_lt_mul_iff_left₀ (zpow_pos two_pos _), Nat.cast_lt,
    mag_lt_mag_iff_magUnits]

/-- Two infinities have the same exponent and mantissa. -/
theorem mag_eq_of_isInf {f : Fmt} {a b : BitVec f.W} (ha : isInf f a = true) (hb : isInf f b = true) :
    mag f a = mag f b := by
  obtain ⟨hea, hma⟩ := (isInf_iff f a).mp ha
  obtain ⟨heb, hmb⟩ := (isInf_iff f b).mp hb
  rw [mag_eq, mag_eq, hea, hma, heb, hmb]

/-- Settles O10: `mag` compares the fields; on finite values that is the order of `magUnits`, and an infinity has the greatest exponent. -/
theorem magnitudeOrderIsTheOrderOfAbsoluteValues : Obligations.MagnitudeOrderIsTheOrderOfAbsoluteValues := by
  refine fun f a b h => ⟨mag_lt_mag_iff f a b, fun _ _ => mag_lt_mag_iff_abs_lt_abs, fun vb ha hb => ?_, mag_eq_of_isInf⟩
  obtain ⟨hea, -⟩ := (isInf_iff f a).mp ha
  exact (mag_lt_mag_iff f a b).mpr (.inl ((expOf_lt_emaxc_of_value? h hb).trans_eq hea.symm))

end Sys2Proof.Proofs

namespace Sys2Proof.Proofs

open Sys2Proof Sys2Proof.Machine

/-! ### The rounding decision -/

/-- Settles O13: the sum is the rounder's definition, and the increment is computed row by row. -/
theorem roundingIncrementFollowsTheTable : Obligations.RoundingIncrementFollowsTheTable :=
  ⟨fun _ _ _ _ _ => rfl, by decide⟩

/-- Settles O15: by the two cases of `carry`. -/
theorem postRoundCarryKeepsTheValue : Obligations.PostRoundCarryKeepsTheValue := by
  refine fun f en sig => ⟨carry_of_eq f en, carry_of_ne f en, ?_⟩
  by_cases h : sig = 2 ^ (f.mbits + 1)
  · rw [h, carry_of_eq, zpow_add_one₀ two_ne_zero]
    push_cast
    ring
  · rw [carry_of_ne f en h]

/-- Settles O16: from `EMAXC` up the resolver answers `OVF`, whose table is its definition. -/
theorem overflowResultFollowsModeAndSign : Obligations.OverflowResultFollowsModeAndSign := by
  intro f e sig xb sin h
  simp only [fpResolve_of_overflow _ sig xb sin _ h]
  exact ⟨rfl, rfl, rfl, rfl, rfl, rfl, rfl, rfl⟩

theorem bit_zero_eq_decide (n : Nat) : bit n 0 = decide (n % 2 = 1) := by
  rw [bit, pow_zero, Nat.div_one, beq_eq_decide]

theorem fpRound_rz (n : Nat) (rb sb s : Bool) : fpRound n .rz rb sb s = n := rfl
theorem fpRound_ru_true (n : Nat) (rb sb : Bool) : fpRound n .ru rb sb true = n := rfl
theorem fpRound_rd_false (n : Nat) (rb sb : Bool) : fpRound n .rd rb sb false = n := rfl

/-- R104: RNE without a round bit truncates. -/
theorem fpRound_rne_of_lt_half (n : Nat) (sb s : Bool) : fpRound n .rne false sb s = n := rfl

/-- R104: RNE with both bits set rounds up. -/
theorem fpRound_rne_of_gt_half (n : Nat) (s : Bool) : fpRound n .rne true true s = n + 1 := rfl

/-- R104: at a tie RNE adds the lowest bit, which leaves an even number. -/
theorem fpRound_rne_tie (n : Nat) (s : Bool) : fpRound n .rne true false s = n + n % 2 := by
  have h : fpRound n .rne true false s = n + b2n (bit n 0) := rfl
  rw [h, bit_zero_eq_decide, b2n]
  simp only [decide_eq_true_eq]
  split_ifs <;> omega

/-- `rb` and `sb` are the round and sticky bits of the discarded fraction `q` (R105). -/
structure BitsOfFraction (q : ℚ) (rb sb : Bool) : Prop where
  nonneg : 0 ≤ q
  lt_one : q < 1
  round : rb = true ↔ 1 / 2 ≤ q
  sticky : sb = true ↔ q ≠ 0 ∧ q ≠ 1 / 2

section

variable {q : ℚ} {rb sb : Bool} (h : BitsOfFraction q rb sb) (n : Nat)
include h

/-- Nothing was discarded exactly when both bits are clear. -/
theorem BitsOfFraction.or_eq_false : (rb || sb) = false ↔ q = 0 := by
  obtain ⟨-, -, hr, hs⟩ := h
  rw [Bool.or_eq_false_iff, ← Bool.not_eq_true, ← Bool.not_eq_true, hr, hs]
  constructor
  · rintro ⟨hlt, hex⟩
    by_contra h0
    exact hex ⟨h0, (not_le.mp hlt).ne⟩
  · rintro rfl
    norm_num

/-- R105: adding the OR of the two bits rounds up. -/
theorem BitsOfFraction.add_or_eq_ceil : ((n + b2n (rb || sb) : ℕ) : Int) = ⌈(n : ℚ) + q⌉ := by
  obtain h0 | h0 := h.nonneg.eq_or_lt
  · simp [(h.or_eq_false).mpr h0.symm, ← h0, b2n]
  · have hor : (rb || sb) = true := by
      rw [← Bool.not_eq_false, h.or_eq_false]
      exact h0.ne'
    have hceil : ⌈q⌉ = 1 := Int.ceil_eq_iff.mpr ⟨by simpa using h0, by simpa using h.lt_one.le⟩
    simp [hor, b2n, hceil]

/-- R105 under RNE: the result is within half a unit, and is even at a tie. -/
theorem BitsOfFraction.fpRound_rne (s : Bool) :
    |(fpRound n .rne rb sb s : ℚ) - (n + q)| ≤ 1 / 2 ∧ (q = 1 / 2 → fpRound n .rne rb sb s % 2 = 0) := by
  obtain ⟨h0, h1, hr, hs⟩ := h
  cases rb with
  | false =>
    have hlt : q < 1 / 2 := not_le.mp fun hle => absurd (hr.mpr hle) (by decide)
    rw [fpRound_rne_of_lt_half, sub_add_cancel_left, abs_neg, abs_of_nonneg h0]
    exact ⟨hlt.le, fun hq => absurd hq hlt.ne⟩
  | true =>
    have hle : 1 / 2 ≤ q := hr.mp rfl
    cases sb with
    | false =>
      obtain rfl : q = 1 / 2 := by
        by_contra hq
        exact absurd (hs.mpr ⟨by linarith, hq⟩) (by decide)
      rw [fpRound_rne_tie]
      refine ⟨?_, fun _ => by omega⟩
      obtain hm | hm := Nat.mod_two_eq_zero_or_one n <;> rw [hm, abs_le] <;> push_cast <;> constructor <;> linarith
    | true =>
      rw [fpRound_rne_of_gt_half, abs_le]
      push_cast
      exact ⟨⟨by linarith, by linarith⟩, fun hq => absurd hq (hs.mp rfl).2⟩

end

/-- Settles O14: RNE by the cases of the two bits, the directed modes by the OR of them. -/
theorem rounderRoundsTheDiscardedFraction : Obligations.RounderRoundsTheDiscardedFraction := by
  intro n q s rb sb h0 h1 hr hs
  have h : BitsOfFraction q rb sb := ⟨h0, h1, hr, hs⟩
  obtain ⟨hnear, htie⟩ := h.fpRound_rne n s
  exact ⟨hnear, htie, fpRound_rz n rb sb s, h.add_or_eq_ceil n, fpRound_ru_true n rb sb, h.add_or_eq_ceil n,
    fpRound_rd_false n rb sb⟩

end Sys2Proof.Proofs

namespace Sys2Proof.Proofs

open Sys2Proof Sys2Proof.Machine

/-! ### Rounding a rational to a natural number

`roundMag` is the rounding step inside `roundToFormat` (R120). `roundMag_of_parts` is how the datapath reaches it: by a significand, a round bit and a sticky bit. -/

/-- The exact number of units in the last place rounded to a natural number, as `roundToFormat` does it (R120). -/
def roundMag (rm : RoundingMode) (s : Bool) (n : ℚ) : Nat :=
  fpRound ⌊n⌋.toNat rm (decide (1 / 2 ≤ n - ⌊n⌋)) (decide (n - ⌊n⌋ ≠ 0 ∧ n - ⌊n⌋ ≠ 1 / 2)) s

theorem bitsOfFraction_fract (n : ℚ) :
    BitsOfFraction (n - ⌊n⌋) (decide (1 / 2 ≤ n - ⌊n⌋)) (decide (n - ⌊n⌋ ≠ 0 ∧ n - ⌊n⌋ ≠ 1 / 2)) :=
  ⟨Int.fract_nonneg n, Int.fract_lt_one n, decide_eq_true_iff, decide_eq_true_iff⟩

/-- The bits are determined by the fraction. -/
theorem BitsOfFraction.roundMag_add {q : ℚ} {rb sb : Bool} (h : BitsOfFraction q rb sb) (rm : RoundingMode) (s : Bool)
    (t : Nat) : roundMag rm s (t + q) = fpRound t rm rb sb s := by
  have hfloor : ⌊(t : ℚ) + q⌋ = (t : Int) := by
    rw [Int.floor_natCast_add, Int.floor_eq_zero_iff.mpr ⟨h.nonneg, h.lt_one⟩, add_zero]
  have hfract : (t : ℚ) + q - ((t : Int) : ℚ) = q := by
    push_cast
    ring
  have hr : decide (1 / 2 ≤ q) = rb := (Bool.decide_congr h.round.symm).trans rb.decide_coe
  have hs : decide (q ≠ 0 ∧ q ≠ 1 / 2) = sb := (Bool.decide_congr h.sticky.symm).trans sb.decide_coe
  rw [roundMag, hfloor, hfract, hr, hs, Int.toNat_natCast]

/-- A natural number is rounded to itself in every mode. -/
@[simp] theorem roundMag_natCast (rm : RoundingMode) (s : Bool) (t : Nat) : roundMag rm s t = t := by
  have h : BitsOfFraction 0 false false := ⟨le_rfl, zero_lt_one, by norm_num, by norm_num⟩
  rw [← add_zero (t : ℚ), h.roundMag_add, fpRound_exact]

/-- What lies below the significand, half a unit for the round bit and a rest of less than half a unit, is rounded by the round bit and a sticky bit for the rest. -/
theorem roundMag_of_parts (rm : RoundingMode) (s : Bool) (t : Nat) (rb sb : Bool) {r : ℚ} (h0 : 0 ≤ r) (h1 : r < 1 / 2)
    (hsb : sb = true ↔ r ≠ 0) : roundMag rm s (t + ((b2n rb : ℚ) / 2 + r)) = fpRound t rm rb sb s := by
  refine BitsOfFraction.roundMag_add ?_ rm s t
  cases rb with
  | false =>
    simp only [b2n, Bool.false_eq_true, if_false, Nat.cast_zero, zero_div, zero_add]
    exact ⟨h0, by linarith, by simpa using h1, hsb.trans ⟨fun h => ⟨h, h1.ne⟩, And.left⟩⟩
  | true =>
    simp only [b2n, if_true, Nat.cast_one]
    refine ⟨by linarith, by linarith, by simpa using h0, hsb.trans ⟨fun h => ⟨by linarith, by simpa using h⟩, ?_⟩⟩
    rintro ⟨-, h⟩ rfl
    exact h (add_zero _)

theorem low_lt (v n : Nat) : low v n < 2 ^ n := Nat.mod_lt _ (Nat.two_pow_pos n)

theorem b2n_bit (v i : Nat) : b2n (bit v i) = v / 2 ^ i % 2 := by
  unfold b2n bit
  obtain h | h := Nat.mod_two_eq_zero_or_one (v / 2 ^ i) <;> simp [h]

/-- R13's operators take a number apart: what is shifted out by `i + 1`, bit `i`, and the bits below it. -/
theorem eq_shift_add_bit_add_low (v i : Nat) :
    v = v / 2 ^ (i + 1) * 2 ^ (i + 1) + b2n (bit v i) * 2 ^ i + low v i := by
  have h1 := Nat.div_add_mod v (2 ^ i)
  have h2 := Nat.div_add_mod (v / 2 ^ i) 2
  rw [b2n_bit, low, pow_succ, ← Nat.div_div_eq_div_mul]
  calc
    v = 2 ^ i * (2 * (v / 2 ^ i / 2) + v / 2 ^ i % 2) + v % 2 ^ i := by rw [h2, h1]
    _ = _ := by ring

/-- A number with a tail, shifted right by `i + 1`: bit `i` is the round bit, and the bits below it and the tail are the rest. -/
theorem shift_add_tail_eq_parts (v i : Nat) (t : ℚ) :
    (v + t) / 2 ^ (i + 1) = (v / 2 ^ (i + 1) : ℕ) + ((b2n (bit v i) : ℚ) / 2 + (low v i + t) / 2 ^ (i + 1)) := by
  have hv : (v : ℚ) = (v / 2 ^ (i + 1) : ℕ) * 2 ^ (i + 1) + b2n (bit v i) * 2 ^ i + low v i := by
    exact_mod_cast eq_shift_add_bit_add_low v i
  have h2 : (2 : ℚ) ^ i ≠ 0 := by positivity
  conv_lhs => rw [hv]
  rw [pow_succ]
  field_simp
  ring

theorem low_add_tail_lt_half (v i : Nat) {t : ℚ} (h : t < 1) : (low v i + t) / 2 ^ (i + 1) < 1 / 2 := by
  have hlow : (low v i : ℚ) + 1 ≤ 2 ^ i := by exact_mod_cast low_lt v i
  rw [div_lt_iff₀ (by positivity), pow_succ]
  linarith

/-- The sticky bit is an OR over what lies below the round bit, a tail included. -/
theorem sticky_iff_rest_ne_zero (v i : Nat) {t : ℚ} {tail : Bool} (h0 : 0 ≤ t) (htail : tail = true ↔ t ≠ 0) :
    (low v i != 0 || tail) = true ↔ (low v i + t) / 2 ^ (i + 1) ≠ 0 := by
  have hsum : (low v i : ℚ) + t = 0 ↔ low v i = 0 ∧ t = 0 := by
    rw [add_eq_zero_iff_of_nonneg (Nat.cast_nonneg _) h0, Nat.cast_eq_zero]
  have h2 : (2 : ℚ) ^ (i + 1) ≠ 0 := by positivity
  rw [Bool.or_eq_true, htail, bne_iff_ne, ne_eq, ne_eq, ne_eq, div_eq_zero_iff, or_iff_left h2, hsum, not_and_or]

/-- The datapath's right shift: the round bit is the highest bit shifted out, and the sticky bit says whether anything is left below it. -/
theorem roundMag_shift (rm : RoundingMode) (s : Bool) (v i : Nat) {t : ℚ} {tail : Bool} (h0 : 0 ≤ t) (h1 : t < 1)
    (htail : tail = true ↔ t ≠ 0) :
    roundMag rm s ((v + t) / 2 ^ (i + 1)) = fpRound (v / 2 ^ (i + 1)) rm (bit v i) (low v i != 0 || tail) s := by
  rw [shift_add_tail_eq_parts]
  exact roundMag_of_parts rm s _ _ _ (by positivity) (low_add_tail_lt_half v i h1) (sticky_iff_rest_ne_zero v i h0 htail)

/-- A value strictly below half a unit is all sticky. -/
theorem roundMag_of_lt_half (rm : RoundingMode) (s : Bool) {n : ℚ} (h0 : 0 < n) (h1 : n < 1 / 2) :
    roundMag rm s n = fpRound 0 rm false true s := by
  have h := roundMag_of_parts rm s 0 false true h0.le h1 (by simp [h0.ne'])
  simpa [b2n] using h

/-! What each mode does to a magnitude (R105). -/

theorem roundMag_eq_or (rm : RoundingMode) (s : Bool) (n : ℚ) :
    roundMag rm s n = ⌊n⌋.toNat ∨ roundMag rm s n = ⌊n⌋.toNat + 1 :=
  fpRound_eq_or ..

theorem floor_toNat_cast {n : ℚ} (h : 0 ≤ n) : ((⌊n⌋.toNat : ℕ) : ℚ) = ⌊n⌋ := by
  exact_mod_cast Int.toNat_of_nonneg (Int.floor_nonneg.mpr h)

theorem roundMag_rz (s : Bool) (n : ℚ) : roundMag .rz s n = ⌊n⌋.toNat := rfl

/-- RU of a positive magnitude. -/
theorem roundMag_ru_false {n : ℚ} (h : 0 ≤ n) : (roundMag .ru false n : Int) = ⌈n⌉ := by
  have hceil := (bitsOfFraction_fract n).add_or_eq_ceil ⌊n⌋.toNat
  rwa [floor_toNat_cast h, add_sub_cancel] at hceil

/-- RNE of a magnitude. -/
theorem roundMag_rne (s : Bool) {n : ℚ} (h : 0 ≤ n) :
    |(roundMag .rne s n : ℚ) - n| ≤ 1 / 2 ∧ (n - ⌊n⌋ = 1 / 2 → roundMag .rne s n % 2 = 0) := by
  have hrne := (bitsOfFraction_fract n).fpRound_rne ⌊n⌋.toNat s
  rwa [floor_toNat_cast h, add_sub_cancel] at hrne

/-- R104: exchanging the sign exchanges the directed modes. -/
theorem roundMag_true_ru (n : ℚ) : roundMag .ru true n = roundMag .rd false n := rfl
theorem roundMag_true_rd (n : ℚ) : roundMag .rd true n = roundMag .ru false n := rfl

end Sys2Proof.Proofs

namespace Sys2Proof.Proofs

open Sys2Proof Sys2Proof.Machine

/-! ### Codes: the exponent and mantissa fields as one number

`mag` reads the two lower fields as one number. Within a binade and from one binade to the next, the post-round carry included, the next number is the next magnitude, so rounding to the format is rounding to a natural number. -/

/-- The least positive magnitude of the format, the value of `MINS` (R90). -/
def minUnit (f : Fmt) : ℚ := (2 : ℚ) ^ (1 - (f.bias : Int) - f.mbits)

theorem minUnit_pos (f : Fmt) : 0 < minUnit f := zpow_pos two_pos _

/-- The magnitude the two lower fields `c` stand for, counted in `minUnit` (R90). -/
def codeUnits (f : Fmt) (c : Nat) : Nat :=
  if c / 2 ^ f.mbits = 0 then c % 2 ^ f.mbits else (2 ^ f.mbits + c % 2 ^ f.mbits) * 2 ^ (c / 2 ^ f.mbits - 1)

/-- The magnitude the two lower fields `c` stand for (R90). -/
def codeMag (f : Fmt) (c : Nat) : ℚ := codeUnits f c * minUnit f

/-- The least code that is not finite: exponent field `EMAXC`, mantissa 0. -/
def codeLimit (f : Fmt) : Nat := f.emaxc * 2 ^ f.mbits

/-- The encoding with a given sign and a given code. -/
def encOf (f : Fmt) (s : Bool) (c : Nat) : BitVec f.W := pack f s (c / 2 ^ f.mbits) (c % 2 ^ f.mbits)

/-- The result for a rounded code: the encoding, or from `codeLimit` up the overflow result (R108). -/
def ofCode (f : Fmt) (s : Bool) (rm : RoundingMode) (c : Nat) : BitVec f.W :=
  if codeLimit f ≤ c then ovf f s rm else encOf f s c

theorem magUnits_eq_codeUnits (f : Fmt) (x : BitVec f.W) : magUnits f x = codeUnits f (mag f x) := by
  rw [magUnits, codeUnits, mag_div, mag_mod]

theorem code_div (f : Fmt) (e : Nat) {m : Nat} (hm : m < 2 ^ f.mbits) : (e * 2 ^ f.mbits + m) / 2 ^ f.mbits = e := by
  rw [Nat.add_comm, Nat.add_mul_div_right _ _ (Nat.two_pow_pos _), Nat.div_eq_of_lt hm, Nat.zero_add]

theorem code_mod (f : Fmt) (e : Nat) {m : Nat} (hm : m < 2 ^ f.mbits) : (e * 2 ^ f.mbits + m) % 2 ^ f.mbits = m := by
  rw [Nat.mul_add_mod', Nat.mod_eq_of_lt hm]

theorem codeUnits_of_exp_zero (f : Fmt) {m : Nat} (hm : m < 2 ^ f.mbits) : codeUnits f m = m := by
  rw [codeUnits, if_pos (Nat.div_eq_of_lt hm), Nat.mod_eq_of_lt hm]

theorem codeUnits_of_exp_succ (f : Fmt) (p : Nat) {m : Nat} (hm : m < 2 ^ f.mbits) :
    codeUnits f ((p + 1) * 2 ^ f.mbits + m) = (2 ^ f.mbits + m) * 2 ^ p := by
  rw [codeUnits, code_div f _ hm, code_mod f _ hm, if_neg p.succ_ne_zero, Nat.add_sub_cancel]

/-- R106 on codes: a significand `r` at the exponent field `p + 1` (a subnormal at `p = 0`) has code `p * 2^M + r`, and the carry to `2^(M+1)` is the next binade's least code. -/
theorem codeUnits_binade (f : Fmt) {p r : Nat} (hlo : p = 0 ∨ 2 ^ f.mbits ≤ r) (hhi : r ≤ 2 ^ (f.mbits + 1)) :
    codeUnits f (p * 2 ^ f.mbits + r) = r * 2 ^ p := by
  rw [pow_succ] at hhi
  obtain hr | hr := lt_or_ge r (2 ^ f.mbits)
  · obtain rfl : p = 0 := hlo.resolve_right (not_le.mpr hr)
    rw [zero_mul, zero_add, codeUnits_of_exp_zero f hr, pow_zero, mul_one]
  · obtain ⟨m, rfl⟩ := Nat.exists_eq_add_of_le hr
    obtain hm | hm := lt_or_ge m (2 ^ f.mbits)
    · rw [← codeUnits_of_exp_succ f p hm]
      congr 1
      ring
    · obtain rfl : m = 2 ^ f.mbits := by omega
      have hcode : p * 2 ^ f.mbits + (2 ^ f.mbits + 2 ^ f.mbits) = (p + 1 + 1) * 2 ^ f.mbits + 0 := by ring
      rw [hcode, codeUnits_of_exp_succ f (p + 1) (Nat.two_pow_pos _)]
      ring

/-- Every code is a significand in its binade. -/
theorem exists_code_eq (f : Fmt) (c : Nat) :
    ∃ p r, c = p * 2 ^ f.mbits + r ∧ (p = 0 ∨ 2 ^ f.mbits ≤ r) ∧ r < 2 ^ (f.mbits + 1) := by
  have hmod : c % 2 ^ f.mbits < 2 ^ f.mbits := Nat.mod_lt _ (Nat.two_pow_pos _)
  have hc := Nat.div_add_mod' c (2 ^ f.mbits)
  rw [pow_succ]
  cases he : c / 2 ^ f.mbits with
  | zero => exact ⟨0, c % 2 ^ f.mbits, by rw [← hc, he, Nat.mul_add_mod_self_right, Nat.mod_mod], .inl rfl, by omega⟩
  | succ p =>
    refine ⟨p, 2 ^ f.mbits + c % 2 ^ f.mbits, ?_, .inr (Nat.le_add_right ..), by omega⟩
    rw [he] at hc
    rw [← Nat.add_assoc, ← Nat.succ_mul, hc]

/-- The next code is the next magnitude. -/
theorem codeUnits_strictMono (f : Fmt) : StrictMono (codeUnits f) := by
  refine strictMono_nat_of_lt_succ fun c => ?_
  obtain ⟨p, r, rfl, hlo, hhi⟩ := exists_code_eq f c
  rw [Nat.add_assoc, codeUnits_binade f hlo hhi.le, codeUnits_binade f (hlo.imp_right Nat.le_succ_of_le) hhi]
  exact Nat.mul_lt_mul_of_pos_right r.lt_succ_self (Nat.two_pow_pos p)

theorem codeMag_strictMono (f : Fmt) : StrictMono (codeMag f) := fun _ _ h =>
  mul_lt_mul_of_pos_right (by exact_mod_cast codeUnits_strictMono f h) (minUnit_pos f)

theorem codeMag_zero (f : Fmt) : codeMag f 0 = 0 := by
  rw [codeMag, codeUnits_of_exp_zero f (Nat.two_pow_pos _), Nat.cast_zero, zero_mul]

theorem codeMag_nonneg (f : Fmt) (c : Nat) : 0 ≤ codeMag f c := by
  rw [← codeMag_zero f]
  exact (codeMag_strictMono f).monotone c.zero_le

theorem codeMag_binade (f : Fmt) {p r : Nat} (hlo : p = 0 ∨ 2 ^ f.mbits ≤ r) (hhi : r ≤ 2 ^ (f.mbits + 1)) :
    codeMag f (p * 2 ^ f.mbits + r) = r * (2 ^ p * minUnit f) := by
  rw [codeMag, codeUnits_binade f hlo hhi]
  push_cast
  ring

/-! ### Encodings by sign and code -/

theorem emaxc_lt (f : Fmt) : f.emaxc < 2 ^ f.ebits := Nat.sub_one_lt (Nat.two_pow_pos _).ne'

@[simp] theorem signOf_pack (f : Fmt) (s : Bool) (e m : Nat) : signOf f (pack f s e m) = s := by
  simp [signOf, pack]

@[simp] theorem signOf_encOf (f : Fmt) (s : Bool) (c : Nat) : signOf f (encOf f s c) = s := signOf_pack ..

@[simp] theorem manOf_encOf (f : Fmt) (s : Bool) (c : Nat) : manOf f (encOf f s c) = c % 2 ^ f.mbits := by
  simp [encOf]

theorem exp_lt_emaxc_iff (f : Fmt) (c : Nat) : c / 2 ^ f.mbits < f.emaxc ↔ c < codeLimit f :=
  Nat.div_lt_iff_lt_mul (Nat.two_pow_pos _)

theorem expOf_encOf {f : Fmt} (s : Bool) {c : Nat} (h : c < codeLimit f) :
    expOf f (encOf f s c) = c / 2 ^ f.mbits := by
  rw [encOf, expOf_pack, Nat.mod_eq_of_lt (((exp_lt_emaxc_iff f c).mpr h).trans (emaxc_lt f))]

theorem mag_encOf {f : Fmt} (s : Bool) {c : Nat} (h : c < codeLimit f) : mag f (encOf f s c) = c := by
  rw [mag_eq, expOf_encOf s h, manOf_encOf, Nat.div_add_mod]

/-- R81: an encoding is its sign and its code. -/
theorem encOf_signOf_mag (f : Fmt) (x : BitVec f.W) : encOf f (signOf f x) (mag f x) = x := by
  rw [encOf, mag_div, mag_mod]
  conv_rhs => rw [← fpEncode_fpDecode f x]
  rw [pack, signOf, expOf, manOf, BitVec.ofNat_toNat, BitVec.ofNat_toNat, BitVec.setWidth_eq, BitVec.setWidth_eq]

theorem encOf_of_exp (f : Fmt) (s : Bool) (e : Nat) {m : Nat} (hm : m < 2 ^ f.mbits) :
    encOf f s (e * 2 ^ f.mbits + m) = pack f s e m := by
  rw [encOf, code_div f e hm, code_mod f e hm]

/-- R66: an encoding is its three fields. -/
theorem eq_of_fields_eq {f : Fmt} {x y : BitVec f.W} (hs : signOf f x = signOf f y) (he : expOf f x = expOf f y)
    (hm : manOf f x = manOf f y) : x = y := by
  rw [← encOf_signOf_mag f x, ← encOf_signOf_mag f y, mag_eq, mag_eq, hs, he, hm]

@[simp] theorem neg_pack (f : Fmt) (s : Bool) (e m : Nat) : neg f (pack f s e m) = pack f (!s) e m :=
  eq_of_fields_eq (by simp) (by simp) (by simp)

theorem neg_encOf (f : Fmt) (s : Bool) (c : Nat) : neg f (encOf f s c) = encOf f (!s) c := neg_pack ..

/-- The largest finite magnitude has the greatest finite code. -/
theorem maxf_eq_encOf {f : Fmt} (h : f.supported = true) (s : Bool) : maxf f s = encOf f s (codeLimit f - 1) := by
  have hmax := one_lt_emaxc h
  have hpos := Nat.two_pow_pos f.mbits
  have hcode : codeLimit f - 1 = (f.emaxc - 1) * 2 ^ f.mbits + (2 ^ f.mbits - 1) := by
    obtain ⟨e, he⟩ := Nat.exists_eq_add_of_lt hmax
    rw [codeLimit, he, Nat.add_sub_cancel, Nat.succ_mul]
    omega
  rw [hcode, encOf_of_exp f s _ (Nat.sub_lt hpos one_pos), maxf]

theorem codeLimit_pos {f : Fmt} (h : f.supported = true) : 0 < codeLimit f :=
  Nat.mul_pos (Nat.zero_lt_of_lt (one_lt_emaxc h)) (Nat.two_pow_pos _)

theorem abs_value {f : Fmt} {x : BitVec f.W} {v : ℚ} (hv : value? f x = some v) :
    |v| = codeMag f (mag f x) := by
  rw [abs_of_value?_eq_some hv, magUnits_eq_codeUnits, codeMag, minUnit]

theorem mag_lt_codeLimit {f : Fmt} (h : f.supported = true) {x : BitVec f.W} {v : ℚ} (hv : value? f x = some v) :
    mag f x < codeLimit f := by
  rw [← exp_lt_emaxc_iff, mag_div]
  exact expOf_lt_emaxc_of_value? h hv

/-- R90: the sign is the sign of the value. -/
theorem value_eq_signFactor_mul_abs {f : Fmt} {x : BitVec f.W} {v : ℚ} (hv : value? f x = some v) :
    v = signFactor (signOf f x) * |v| := by
  obtain ⟨-, rfl⟩ | ⟨-, -, rfl⟩ := value?_eq_some_cases hv <;>
    rw [abs_mul, abs_mul, abs_signFactor, one_mul, Nat.abs_cast, abs_of_pos (zpow_pos two_pos _), mul_assoc]

/-- R83: below the exponent code `EMAXC` there is a value. -/
theorem exists_value_of_mag_lt {f : Fmt} {x : BitVec f.W} (hx : mag f x < codeLimit f) : ∃ v, value? f x = some v := by
  rw [← exp_lt_emaxc_iff, mag_div] at hx
  unfold value?
  split_ifs with hz hs hn
  · exact ⟨_, rfl⟩
  · exact ⟨_, rfl⟩
  · exact ⟨_, rfl⟩
  · refine absurd ?_ hn
    have he : expOf f x ≠ 0 := fun he => by simp [isZero, isSubnormal, he] at hz hs; exact hz hs
    simp [isNormal, hx, Nat.pos_of_ne_zero he]

/-- R90 on codes: a finite encoding stands for its sign and its code's magnitude, and the other encodings for nothing. -/
theorem value?_eq_some_iff {f : Fmt} (h : f.supported = true) {x : BitVec f.W} {v : ℚ} :
    value? f x = some v ↔ mag f x < codeLimit f ∧ v = signFactor (signOf f x) * codeMag f (mag f x) := by
  refine ⟨fun hv => ⟨mag_lt_codeLimit h hv, ?_⟩, ?_⟩
  · rw [← abs_value hv]
    exact value_eq_signFactor_mul_abs hv
  · rintro ⟨hx, rfl⟩
    obtain ⟨w, hw⟩ := exists_value_of_mag_lt hx
    rw [← abs_value hw, ← value_eq_signFactor_mul_abs hw, hw]

theorem value?_encOf {f : Fmt} (h : f.supported = true) (s : Bool) {c : Nat} (hc : c < codeLimit f) :
    value? f (encOf f s c) = some (signFactor s * codeMag f c) := by
  rw [value?_eq_some_iff h, signOf_encOf, mag_encOf s hc]
  exact ⟨hc, rfl⟩

end Sys2Proof.Proofs

namespace Sys2Proof.Proofs

open Sys2Proof Sys2Proof.Machine

/-! ### `roundToFormat` by binades -/

/-- `n` is a significand, not yet rounded, in the binade with exponent field `p + 1`; the binade `p = 0` holds the subnormals too. The magnitude it stands for is `n * (2^p * minUnit f)`. -/
structure Binade (f : Fmt) (p : Nat) (n : ℚ) : Prop where
  pos : 0 < n
  lo : p = 0 ∨ 2 ^ f.mbits ≤ n
  hi : n < 2 ^ (f.mbits + 1)

/-- The unit in the last place of a binade. -/
theorem two_pow_mul_minUnit (f : Fmt) (p : Nat) :
    (2 : ℚ) ^ p * minUnit f = 2 ^ (p + 1 - (f.bias : Int) - f.mbits) := by
  rw [minUnit, ← zpow_natCast, ← zpow_add₀ two_ne_zero]
  congr 1
  ring

theorem ulp_pos (f : Fmt) (p : Nat) : 0 < (2 : ℚ) ^ p * minUnit f := mul_pos (by positivity) (minUnit_pos f)

theorem lt_two_zpow_iff {q : ℚ} (hq : 0 < q) (k : Int) : q < (2 : ℚ) ^ k ↔ floorLog2 q < k := by
  exact_mod_cast Int.lt_zpow_iff_log_lt one_lt_two hq

theorem two_zpow_le_iff {q : ℚ} (hq : 0 < q) (k : Int) : (2 : ℚ) ^ k ≤ q ↔ k ≤ floorLog2 q := by
  exact_mod_cast Int.zpow_le_iff_le_log one_lt_two hq

/-- A power of two taken in units in the last place of the binade. -/
theorem two_pow_mul_ulp (f : Fmt) (p j : Nat) :
    (2 : ℚ) ^ (f.mbits + j) * (2 ^ p * minUnit f) = 2 ^ (p + 1 + j - (f.bias : Int)) := by
  rw [two_pow_mul_minUnit, ← zpow_natCast, ← zpow_add₀ two_ne_zero]
  congr 1
  push_cast
  ring

/-- R120: the exponent `roundToFormat` rounds at is the binade's. -/
theorem Binade.max_floorLog2 {f : Fmt} {p : Nat} {n : ℚ} (hn : Binade f p n) :
    max (floorLog2 (n * (2 ^ p * minUnit f))) (1 - (f.bias : Int)) = p + 1 - f.bias := by
  have hu := ulp_pos f p
  have hq := mul_pos hn.pos hu
  have hhi : floorLog2 (n * (2 ^ p * minUnit f)) < p + 1 + (1 : ℕ) - f.bias := by
    rw [← lt_two_zpow_iff hq, ← two_pow_mul_ulp]
    exact mul_lt_mul_of_pos_right hn.hi hu
  obtain rfl | hlo := hn.lo
  · rw [max_eq_right (by omega)]
    simp
  · have hle : p + 1 + (0 : ℕ) - (f.bias : Int) ≤ floorLog2 (n * (2 ^ p * minUnit f)) := by
      rw [← two_zpow_le_iff hq, ← two_pow_mul_ulp]
      exact mul_le_mul_of_nonneg_right hlo hu.le
    omega

/-- R120: every positive magnitude lies in a binade. -/
theorem exists_binade (f : Fmt) {q : ℚ} (hq : 0 < q) : ∃ p n, Binade f p n ∧ q = n * (2 ^ p * minUnit f) := by
  obtain ⟨p, hp⟩ := Int.eq_ofNat_of_zero_le (sub_nonneg.mpr (le_max_right (floorLog2 q) (1 - (f.bias : Int))))
  have hu := ulp_pos f p
  refine ⟨p, q / (2 ^ p * minUnit f), ⟨div_pos hq hu, ?_, ?_⟩, (div_mul_cancel₀ q hu.ne').symm⟩
  · refine (Nat.eq_zero_or_pos p).imp_right fun hpos => ?_
    rw [le_div_iff₀ hu, ← Nat.add_zero f.mbits, two_pow_mul_ulp, two_zpow_le_iff hq]
    omega
  · rw [div_lt_iff₀ hu, two_pow_mul_ulp, lt_two_zpow_iff hq]
    omega

/-! ### Putting a rounded significand together -/

/-- The end of `roundToFormat`: exponent and significand after the carry (R120). -/
def assemble (f : Fmt) (s : Bool) (rm : RoundingMode) (r : Int × Nat) : BitVec f.W :=
  if 2 ^ f.mbits ≤ r.2 then
    if (f.emaxc : Int) ≤ r.1 + f.bias then ovf f s rm else pack f s (r.1 + f.bias).toNat (r.2 - 2 ^ f.mbits)
  else pack f s 0 r.2

theorem roundToFormat_eq_assemble (f : Fmt) (s : Bool) (q : ℚ) (rm : RoundingMode) {k : Int}
    (hk : max (floorLog2 q) (1 - (f.bias : Int)) = k) :
    roundToFormat f s q rm = assemble f s rm (carry f k (roundMag rm s (q / 2 ^ (k - f.mbits)))) := by
  subst hk
  rfl

/-- R106 by cases: after the carry the significand is `2^M + m` with `m` a mantissa, and the exponent has taken up the rest. -/
theorem exists_carry_eq (f : Fmt) (en : Int) {r : Nat} (hlo : 2 ^ f.mbits ≤ r) (hhi : r ≤ 2 ^ (f.mbits + 1)) :
    ∃ j m : Nat, m < 2 ^ f.mbits ∧ carry f en r = (en + j, 2 ^ f.mbits + m) ∧ r = (j + 1) * 2 ^ f.mbits + m := by
  obtain rfl | hlt := hhi.eq_or_lt
  · exact ⟨1, 0, Nat.two_pow_pos _, carry_of_eq f en, by ring⟩
  · obtain ⟨m, rfl⟩ := Nat.exists_eq_add_of_le hlo
    refine ⟨0, m, ?_, ?_, by ring⟩
    · rw [pow_succ] at hlt
      omega
    · rw [carry_of_ne f en hlt.ne, Nat.cast_zero, add_zero]

theorem emaxc_le_iff (f : Fmt) (e : Nat) {m : Nat} (hm : m < 2 ^ f.mbits) :
    f.emaxc ≤ e ↔ codeLimit f ≤ e * 2 ^ f.mbits + m := by
  rw [← not_lt, ← not_lt, ← exp_lt_emaxc_iff, code_div f e hm]

/-- A normal result by its code. -/
theorem ofCode_of_exp (f : Fmt) (s : Bool) (rm : RoundingMode) (e : Nat) {m : Nat} (hm : m < 2 ^ f.mbits) :
    ofCode f s rm (e * 2 ^ f.mbits + m) = if f.emaxc ≤ e then ovf f s rm else pack f s e m := by
  simp only [ofCode, emaxc_le_iff f e hm, encOf_of_exp f s e hm]

theorem assemble_carry {f : Fmt} (h : f.supported = true) (s : Bool) (rm : RoundingMode) {p r : Nat}
    (hlo : p = 0 ∨ 2 ^ f.mbits ≤ r) (hhi : r ≤ 2 ^ (f.mbits + 1)) :
    assemble f s rm (carry f (p + 1 - f.bias) r) = ofCode f s rm (p * 2 ^ f.mbits + r) := by
  obtain hr | hr := lt_or_ge r (2 ^ f.mbits)
  · obtain rfl : p = 0 := hlo.resolve_right (not_le.mpr hr)
    have hcarry : r ≠ 2 ^ (f.mbits + 1) := (hr.trans (Nat.pow_lt_pow_right one_lt_two (Nat.lt_succ_self _))).ne
    have hmax : ¬ f.emaxc ≤ 0 := not_le.mpr (Nat.zero_lt_of_lt (one_lt_emaxc h))
    rw [carry_of_ne f _ hcarry, ofCode_of_exp f s rm 0 hr, if_neg hmax, assemble, if_neg (not_le.mpr hr)]
  · obtain ⟨j, m, hm, hcarry, rfl⟩ := exists_carry_eq f (p + 1 - f.bias) hr hhi
    have hcode : p * 2 ^ f.mbits + ((j + 1) * 2 ^ f.mbits + m) = (p + 1 + j) * 2 ^ f.mbits + m := by ring
    have hexp : (p : Int) + 1 - f.bias + j + f.bias = ((p + 1 + j : ℕ) : Int) := by push_cast; ring
    rw [hcarry, hcode, ofCode_of_exp f s rm _ hm, assemble]
    simp only [hexp, Nat.cast_le, Int.toNat_natCast, Nat.add_sub_cancel_left, Nat.le_add_right, if_true]

/-! ### `roundToFormat` is rounding of codes -/

/-- A significand that is at least a power of two, or less than one, stays so when it is rounded. -/
theorem le_roundMag (rm : RoundingMode) (s : Bool) {n : ℚ} {k : Nat} (h : (k : ℚ) ≤ n) : k ≤ roundMag rm s n := by
  have hk : k ≤ ⌊n⌋.toNat := by
    have : (k : Int) ≤ ⌊n⌋ := Int.le_floor.mpr (by exact_mod_cast h)
    omega
  obtain hr | hr := roundMag_eq_or rm s n <;> omega

theorem floor_toNat_lt {n : ℚ} {k : Nat} (h0 : 0 ≤ n) (h : n < k) : ⌊n⌋.toNat < k := by
  have : ⌊n⌋ < (k : Int) := Int.floor_lt.mpr (by exact_mod_cast h)
  have := Int.floor_nonneg.mpr h0
  omega

theorem roundMag_le (rm : RoundingMode) (s : Bool) {n : ℚ} {k : Nat} (h0 : 0 ≤ n) (h : n < k) :
    roundMag rm s n ≤ k := by
  have := floor_toNat_lt h0 h
  obtain hr | hr := roundMag_eq_or rm s n <;> omega

section

variable {f : Fmt} {p : Nat} {n : ℚ} (hn : Binade f p n)
include hn

theorem Binade.two_pow_le_roundMag (rm : RoundingMode) (s : Bool) : p = 0 ∨ 2 ^ f.mbits ≤ roundMag rm s n :=
  hn.lo.imp_right fun h => le_roundMag rm s (by exact_mod_cast h)

theorem Binade.roundMag_le_two_pow (rm : RoundingMode) (s : Bool) : roundMag rm s n ≤ 2 ^ (f.mbits + 1) :=
  roundMag_le rm s hn.pos.le (by exact_mod_cast hn.hi)

/-- R120 on codes: the result is the code `p * 2^M` and the rounded significand. -/
theorem Binade.roundToFormat_eq (h : f.supported = true) (s : Bool) (rm : RoundingMode) :
    roundToFormat f s (n * (2 ^ p * minUnit f)) rm = ofCode f s rm (p * 2 ^ f.mbits + roundMag rm s n) := by
  rw [roundToFormat_eq_assemble f s _ rm hn.max_floorLog2, ← two_pow_mul_minUnit,
    mul_div_cancel_right₀ n (ulp_pos f p).ne',
    assemble_carry h s rm (hn.two_pow_le_roundMag rm s) (hn.roundMag_le_two_pow rm s)]

end

end Sys2Proof.Proofs

namespace Sys2Proof.Proofs

open Sys2Proof Sys2Proof.Machine

/-! ### Results by code -/

theorem ofCode_of_lt {f : Fmt} (s : Bool) (rm : RoundingMode) {c : Nat} (hc : c < codeLimit f) :
    ofCode f s rm c = encOf f s c := if_neg (not_le.mpr hc)

theorem ofCode_of_ge {f : Fmt} (s : Bool) (rm : RoundingMode) {c : Nat} (hc : codeLimit f ≤ c) :
    ofCode f s rm c = ovf f s rm := if_pos hc

/-- A finite code gives its encoding's value. -/
theorem value?_ofCode {f : Fmt} (h : f.supported = true) (s : Bool) (rm : RoundingMode) {c : Nat}
    (hc : c < codeLimit f) : value? f (ofCode f s rm c) = some (signFactor s * codeMag f c) := by
  rw [ofCode_of_lt s rm hc, value?_encOf h s hc]

/-- R108: under RZ an overflow gives the largest finite code. -/
theorem ofCode_rz {f : Fmt} (h : f.supported = true) (s : Bool) (c : Nat) :
    ofCode f s .rz c = encOf f s (min c (codeLimit f - 1)) := by
  have hL := codeLimit_pos h
  obtain hc | hc := lt_or_ge c (codeLimit f)
  · rw [ofCode_of_lt s _ hc, min_eq_left (by omega)]
  · rw [ofCode_of_ge s _ hc, min_eq_right (by omega), ← maxf_eq_encOf h]
    rfl

/-- R108: RNE, and RU of a positive magnitude, overflow to the infinity, which no finite code gives. -/
theorem ofCode_eq_inf_iff {f : Fmt} {s : Bool} {rm : RoundingMode} (hovf : ovf f s rm = inf f s) (c : Nat) :
    ofCode f s rm c = inf f s ↔ codeLimit f ≤ c := by
  obtain hc | hc := lt_or_ge c (codeLimit f)
  · refine ⟨fun heq => absurd (congrArg (expOf f) heq) ?_, fun hge => absurd hc (not_lt.mpr hge)⟩
    have he := (exp_lt_emaxc_iff f c).mpr hc
    rw [ofCode_of_lt s _ hc, expOf_encOf s hc, inf, expOf_pack, Nat.mod_eq_of_lt (emaxc_lt f)]
    exact he.ne
  · exact ⟨fun _ => hc, fun _ => (ofCode_of_ge s rm hc).trans hovf⟩

@[simp] theorem signOf_ofCode (f : Fmt) (s : Bool) (rm : RoundingMode) (c : Nat) : signOf f (ofCode f s rm c) = s := by
  unfold ofCode
  split_ifs
  · obtain hi | hm := ovf_eq_or f s rm
    · rw [hi, inf, signOf_pack]
    · rw [hm, maxf, signOf_pack]
  · exact signOf_encOf f s c

theorem isNaN_ofCode {f : Fmt} (h : f.supported = true) (s : Bool) (rm : RoundingMode) (c : Nat) :
    isNaN f (ofCode f s rm c) = false := by
  obtain hc | hc := lt_or_ge c (codeLimit f)
  · rw [ofCode_of_lt s rm hc]
    exact isNaN_pack_of_exp_lt s _ ((exp_lt_emaxc_iff f c).mpr hc)
  · rw [ofCode_of_ge s rm hc, isNaN_ovf h]

/-- R108: exchanging the sign exchanges the overflow results of the directed modes. -/
theorem neg_ovf_rd (f : Fmt) : neg f (ovf f false .rd) = ovf f true .ru := neg_pack ..
theorem neg_ovf_ru (f : Fmt) : neg f (ovf f false .ru) = ovf f true .rd := neg_pack ..

theorem neg_ofCode {f : Fmt} {rm rm' : RoundingMode} (hovf : neg f (ovf f false rm) = ovf f true rm') (c : Nat) :
    neg f (ofCode f false rm c) = ofCode f true rm' c := by
  unfold ofCode
  split_ifs
  · exact hovf
  · exact neg_encOf f false c

/-- R83: a zero is the zero of its sign. -/
theorem eq_zero_of_isZero {f : Fmt} {x : BitVec f.W} (hx : isZero f x = true) : x = zero f (signOf f x) := by
  obtain ⟨he, hm⟩ : expOf f x = 0 ∧ manOf f x = 0 := by simpa [isZero] using hx
  exact eq_of_fields_eq (by simp [zero]) (by simp [zero, he]) (by simp [zero, hm])

theorem abs_signFactor_mul (s : Bool) {m : ℚ} (hm : 0 ≤ m) : |signFactor s * m| = m := by
  rw [abs_mul, abs_signFactor, one_mul, abs_of_nonneg hm]

/-! ### Representable magnitudes (R122, first point) -/

theorem codeMag_ne_zero_iff (f : Fmt) (c : Nat) : codeMag f c ≠ 0 ↔ c ≠ 0 := by
  rw [← codeMag_zero f, (codeMag_strictMono f).injective.ne_iff]

/-- The magnitude of a nonzero code is a whole number of units in the last place, which no mode changes. -/
theorem roundToFormat_codeMag {f : Fmt} (h : f.supported = true) (s : Bool) (rm : RoundingMode) {c : Nat} (hc : c ≠ 0) :
    roundToFormat f s (codeMag f c) rm = ofCode f s rm c := by
  obtain ⟨p, r, rfl, hlo, hhi⟩ := exists_code_eq f c
  have hr : 0 < r := by
    refine Nat.pos_of_ne_zero fun h0 => hc ?_
    have hp : p = 0 := hlo.resolve_right (by rw [h0]; exact not_le.mpr (Nat.two_pow_pos _))
    rw [hp, h0, zero_mul]
  have hn : Binade f p (r : ℚ) := ⟨by exact_mod_cast hr, by exact_mod_cast hlo, by exact_mod_cast hhi⟩
  rw [codeMag_binade f hlo hhi.le, hn.roundToFormat_eq h, roundMag_natCast]

theorem roundToFormat_abs_value {f : Fmt} (h : f.supported = true) {x : BitVec f.W} {v : ℚ} (hv : value? f x = some v)
    (h0 : v ≠ 0) (rm : RoundingMode) : roundToFormat f (signOf f x) |v| rm = x := by
  have hc : mag f x ≠ 0 := by
    rw [← codeMag_ne_zero_iff, ← abs_value hv]
    exact abs_ne_zero.mpr h0
  rw [abs_value hv, roundToFormat_codeMag h _ rm hc, ofCode_of_lt _ rm (mag_lt_codeLimit h hv), encOf_signOf_mag]

/-- Settles O18: an encoding's magnitude is that of its code, which is rounded to itself. -/
theorem exactRoundingFixesRepresentableValues : Obligations.ExactRoundingFixesRepresentableValues :=
  fun _ _ _ rm h hv h0 => roundToFormat_abs_value h hv h0 rm

/-- Settles O22: both signs round to the same code, and a code's result has its sign and is no NaN. -/
theorem exactRoundingMirrorsDirectedModesAndKeepsTheSign :
    Obligations.ExactRoundingMirrorsDirectedModesAndKeepsTheSign := by
  intro f q h hq
  obtain ⟨p, n, hn, rfl⟩ := exists_binade f hq
  simp only [hn.roundToFormat_eq h]
  refine ⟨?_, ?_, fun s rm => ⟨signOf_ofCode .., isNaN_ofCode h .., fun hz => ?_⟩⟩
  · rw [neg_ofCode (neg_ovf_rd f), roundMag_true_ru]
  · rw [neg_ofCode (neg_ovf_ru f), roundMag_true_rd]
  · rw [eq_zero_of_isZero hz, signOf_ofCode]

/-! ### The codes below and above an exact magnitude -/

section

variable {f : Fmt} {p : Nat} {n : ℚ} (hn : Binade f p n)
include hn

/-- The rounded code stands for the rounded significand, the post-round carry included. -/
theorem Binade.codeMag_round (rm : RoundingMode) (s : Bool) :
    codeMag f (p * 2 ^ f.mbits + roundMag rm s n) = roundMag rm s n * (2 ^ p * minUnit f) :=
  codeMag_binade f (hn.two_pow_le_roundMag rm s) (hn.roundMag_le_two_pow rm s)

/-- Truncation gives a code whose magnitude is not above the exact one. -/
theorem Binade.codeMag_floor : codeMag f (p * 2 ^ f.mbits + ⌊n⌋.toNat) = ⌊n⌋ * (2 ^ p * minUnit f) := by
  have hz := hn.codeMag_round .rz false
  rwa [roundMag_rz, floor_toNat_cast hn.pos.le] at hz

/-- The next code's magnitude is one unit in the last place above that. -/
theorem Binade.codeMag_floor_succ :
    codeMag f (p * 2 ^ f.mbits + ⌊n⌋.toNat + 1) = (⌊n⌋ + 1) * (2 ^ p * minUnit f) := by
  have hlo := hn.two_pow_le_roundMag .rz false
  have hhi : ⌊n⌋.toNat < 2 ^ (f.mbits + 1) := floor_toNat_lt hn.pos.le (by exact_mod_cast hn.hi)
  rw [roundMag_rz] at hlo
  rw [Nat.add_assoc, codeMag_binade f (hlo.imp_right Nat.le_succ_of_le) hhi, Nat.cast_succ, floor_toNat_cast hn.pos.le]

theorem Binade.codeMag_le_floor {d : Nat} (hd : d ≤ p * 2 ^ f.mbits + ⌊n⌋.toNat) :
    codeMag f d ≤ ⌊n⌋ * (2 ^ p * minUnit f) := by
  rw [← hn.codeMag_floor]
  exact (codeMag_strictMono f).monotone hd

theorem Binade.floor_succ_le_codeMag {d : Nat} (hd : p * 2 ^ f.mbits + ⌊n⌋.toNat < d) :
    (⌊n⌋ + 1) * (2 ^ p * minUnit f) ≤ codeMag f d := by
  rw [← hn.codeMag_floor_succ]
  exact (codeMag_strictMono f).monotone hd

/-- The codes of magnitude at most the exact one are those up to the truncated one. -/
theorem Binade.codeMag_le_iff (d : Nat) :
    codeMag f d ≤ n * (2 ^ p * minUnit f) ↔ d ≤ p * 2 ^ f.mbits + ⌊n⌋.toNat := by
  have hu := ulp_pos f p
  refine ⟨fun hle => ?_, fun hd => ?_⟩
  · by_contra hd
    refine absurd ((hn.floor_succ_le_codeMag (not_le.mp hd)).trans hle) (not_le.mpr ?_)
    exact mul_lt_mul_of_pos_right (Int.lt_floor_add_one n) hu
  · exact (hn.codeMag_le_floor hd).trans (mul_le_mul_of_nonneg_right (Int.floor_le n) hu.le)

/-- The codes of magnitude at least the exact one are those from RU's one up. -/
theorem Binade.le_codeMag_iff (d : Nat) :
    n * (2 ^ p * minUnit f) ≤ codeMag f d ↔ p * 2 ^ f.mbits + roundMag .ru false n ≤ d := by
  have hu := ulp_pos f p
  have hceil := roundMag_ru_false hn.pos.le
  refine ⟨fun hle => ?_, fun hd => ?_⟩
  · by_contra hd
    refine absurd hle (not_le.mpr ?_)
    obtain hr | hr := roundMag_eq_or .ru false n
    · refine ((codeMag_strictMono f) (not_le.mp hd)).trans_le ?_
      rw [hr]
      exact (hn.codeMag_le_iff _).mpr le_rfl
    · refine (hn.codeMag_le_floor (by omega)).trans_lt (mul_lt_mul_of_pos_right ?_ hu)
      have := Int.floor_nonneg.mpr hn.pos.le
      exact Int.lt_ceil.mp (by omega)
  · refine le_trans ?_ ((codeMag_strictMono f).monotone hd)
    have hle : n ≤ roundMag .ru false n := by exact_mod_cast Int.ceil_le.mp hceil.ge
    rw [hn.codeMag_round]
    exact mul_le_mul_of_nonneg_right hle hu.le

end

/-- Settles O19: truncation gives the greatest code whose magnitude is not above the exact one, cut off at the largest finite code. -/
theorem roundTowardZeroGivesTheLargestMagnitudeBelow : Obligations.RoundTowardZeroGivesTheLargestMagnitudeBelow := by
  intro f s q h hq
  obtain ⟨p, n, hn, rfl⟩ := exists_binade f hq
  rw [hn.roundToFormat_eq h, ofCode_rz h, roundMag_rz]
  have hfin : min (p * 2 ^ f.mbits + ⌊n⌋.toNat) (codeLimit f - 1) < codeLimit f :=
    (min_le_right _ _).trans_lt (Nat.sub_lt (codeLimit_pos h) one_pos)
  refine ⟨_, value?_encOf h s hfin, ?_, fun x w hw hle => ?_⟩
  · rw [abs_signFactor_mul s (codeMag_nonneg f _), hn.codeMag_le_iff]
    exact min_le_left _ _
  · rw [abs_value hw, hn.codeMag_le_iff] at hle
    rw [abs_value hw, abs_signFactor_mul s (codeMag_nonneg f _)]
    exact (codeMag_strictMono f).monotone (le_min hle (Nat.le_sub_one_of_lt (mag_lt_codeLimit h hw)))

/-- Settles O21: RU gives the least code whose magnitude is not below the exact one, and RD of a negative result is its mirror. -/
theorem roundAwayGivesTheLeastMagnitudeAbove : Obligations.RoundAwayGivesTheLeastMagnitudeAbove := by
  intro f q h hq
  refine ⟨(exactRoundingMirrorsDirectedModesAndKeepsTheSign f q h hq).2.1, ?_⟩
  obtain ⟨p, n, hn, rfl⟩ := exists_binade f hq
  rw [hn.roundToFormat_eq h]
  obtain hc | hc := le_or_gt (codeLimit f) (p * 2 ^ f.mbits + roundMag .ru false n)
  · refine .inl ⟨(ofCode_eq_inf_iff rfl _).mpr hc, fun x w hw => ?_⟩
    rw [abs_value hw, ← not_le, hn.le_codeMag_iff]
    exact not_le.mpr ((mag_lt_codeLimit h hw).trans_le hc)
  · have hpos (c : Nat) : signFactor false * codeMag f c = codeMag f c := one_mul _
    refine .inr ⟨_, value?_ofCode h false .ru hc, ?_, fun x w hw hle => ?_⟩ <;> rw [hpos]
    · exact (hn.le_codeMag_iff _).mpr le_rfl
    · rw [abs_value hw] at hle ⊢
      exact (codeMag_strictMono f).monotone ((hn.le_codeMag_iff _).mp hle)

end Sys2Proof.Proofs

namespace Sys2Proof.Proofs

open Sys2Proof Sys2Proof.Machine

/-! ### RNE: the nearest code, and the overflow threshold -/

/-- R105: a result half a unit away is even. -/
theorem even_roundMag_rne_of_tie (s : Bool) {n : ℚ} (h : 0 ≤ n) (htie : |(roundMag .rne s n : ℚ) - n| = 1 / 2) :
    roundMag .rne s n % 2 = 0 := by
  have hfloor := floor_toNat_cast h
  have hle := Int.floor_le n
  have hlt := Int.lt_floor_add_one n
  refine (roundMag_rne s h).2 ?_
  obtain hr | hr := roundMag_eq_or .rne s n
  · rw [hr, hfloor, abs_of_nonpos (by linarith)] at htie
    linarith
  · rw [hr, Nat.cast_succ, hfloor, abs_of_nonneg (by linarith)] at htie
    linarith

section

variable {q a u y z : ℚ} (hz : z = a ∨ z = a + u) (haq : a ≤ q) (hqa : q ≤ a + u) (hhalf : |q - z| ≤ u / 2)
  (hy : y ≤ a ∨ a + u ≤ y)
include hz haq hqa hhalf hy

/-- An end `z` of an interval of length `u` around `q` that is at most `u / 2` away is no farther than anything outside the interval, and only at a tie is another point as near. -/
theorem nearest_end : |q - z| ≤ |q - y| ∧ (|q - z| = |q - y| → y ≠ z → |q - z| = u / 2) := by
  rw [abs_le] at hhalf
  obtain ⟨hl, hr⟩ := hhalf
  obtain rfl | rfl := hz <;> obtain hy | hy := hy
  · rw [abs_of_nonneg (sub_nonneg.mpr haq), abs_of_nonneg (by linarith)]
    exact ⟨by linarith, fun h hne => absurd (by linarith) hne⟩
  · rw [abs_of_nonneg (sub_nonneg.mpr haq), abs_of_nonpos (by linarith)]
    exact ⟨by linarith, fun h _ => by linarith⟩
  · rw [abs_of_nonpos (sub_nonpos.mpr hqa), abs_of_nonneg (by linarith)]
    exact ⟨by linarith, fun h _ => by linarith⟩
  · rw [abs_of_nonpos (sub_nonpos.mpr hqa), abs_of_nonpos (by linarith)]
    exact ⟨by linarith, fun h hne => absurd (by linarith) hne⟩

end

theorem two_dvd_two_pow_mbits {f : Fmt} (h : f.supported = true) : 2 ∣ 2 ^ f.mbits :=
  dvd_pow_self 2 (Nat.ne_zero_of_lt (qbit_lt_mbits h))

/-- The lowest bit of a rounded code is that of the rounded significand. -/
theorem code_mod_two {f : Fmt} (h : f.supported = true) (p r : Nat) : (p * 2 ^ f.mbits + r) % 2 = r % 2 := by
  have hdvd := (two_dvd_two_pow_mbits h).mul_left p
  omega

section

variable {f : Fmt} {p : Nat} {n : ℚ} (hn : Binade f p n) (s : Bool)
include hn

/-- R105: RNE moves a magnitude by at most half a unit in the last place. -/
theorem Binade.abs_sub_codeMag_rne : |n * (2 ^ p * minUnit f) - codeMag f (p * 2 ^ f.mbits + roundMag .rne s n)| =
    |(roundMag .rne s n : ℚ) - n| * (2 ^ p * minUnit f) := by
  rw [hn.codeMag_round, ← sub_mul, abs_mul, abs_of_pos (ulp_pos f p), abs_sub_comm]

/-- Every code is at least as far from the exact magnitude as RNE's code, and another is as near only at a tie, where RNE's significand is even. -/
theorem Binade.rne_nearest (d : Nat) :
    let q := n * (2 ^ p * minUnit f)
    let c := p * 2 ^ f.mbits + roundMag .rne s n
    |q - codeMag f c| ≤ |q - codeMag f d| ∧
      (|q - codeMag f c| = |q - codeMag f d| → d ≠ c → roundMag .rne s n % 2 = 0) := by
  intro q c
  have hu := ulp_pos f p
  have hdist := hn.abs_sub_codeMag_rne s
  have hends : codeMag f c = ⌊n⌋ * (2 ^ p * minUnit f) ∨
      codeMag f c = ⌊n⌋ * (2 ^ p * minUnit f) + 2 ^ p * minUnit f := by
    rw [hn.codeMag_round, ← add_one_mul, ← floor_toNat_cast hn.pos.le]
    exact (roundMag_eq_or .rne s n).imp (fun hr => by rw [hr]) (fun hr => by rw [hr, Nat.cast_succ])
  have hout : codeMag f d ≤ ⌊n⌋ * (2 ^ p * minUnit f) ∨
      ⌊n⌋ * (2 ^ p * minUnit f) + 2 ^ p * minUnit f ≤ codeMag f d := by
    rw [← add_one_mul]
    exact (le_or_gt d _).imp hn.codeMag_le_floor hn.floor_succ_le_codeMag
  have hhalf : |q - codeMag f c| ≤ (2 ^ p * minUnit f) / 2 := by
    rw [hdist, div_eq_inv_mul, ← one_div]
    exact mul_le_mul_of_nonneg_right (roundMag_rne s hn.pos.le).1 hu.le
  have hfloor : ⌊n⌋ * (2 ^ p * minUnit f) ≤ q := mul_le_mul_of_nonneg_right (Int.floor_le n) hu.le
  have hsucc : q ≤ ⌊n⌋ * (2 ^ p * minUnit f) + 2 ^ p * minUnit f := by
    rw [← add_one_mul]
    exact mul_le_mul_of_nonneg_right (Int.lt_floor_add_one n).le hu.le
  obtain ⟨hnear, htie⟩ := nearest_end hends hfloor hsucc hhalf hout
  refine ⟨hnear, fun heq hne => even_roundMag_rne_of_tie s hn.pos.le ?_⟩
  have hhalf' := htie heq ((codeMag_strictMono f).injective.ne hne)
  rw [hdist, div_eq_inv_mul, ← one_div] at hhalf'
  exact mul_right_cancel₀ hu.ne' hhalf'

end

/-- R122: the largest finite magnitude and half a unit in the last place of its binade. -/
def overflowThreshold (f : Fmt) : ℚ := (2 ^ (f.mbits + 2) - 1 : ℚ) * (2 : ℚ) ^ ((f.emaxc : Int) - f.bias - f.mbits - 2)

theorem overflowThreshold_eq {f : Fmt} {e : Nat} (he : f.emaxc = e + 2) :
    overflowThreshold f = (2 ^ (f.mbits + 1) - 1 / 2) * (2 ^ e * minUnit f) := by
  have hexp : (f.emaxc : Int) - f.bias - f.mbits - 2 = e + 1 - f.bias - f.mbits - 1 := by omega
  rw [overflowThreshold, hexp, zpow_sub_one₀ two_ne_zero, ← two_pow_mul_minUnit]
  ring

/-- The threshold lies half a unit above the largest finite code and half a unit below the code after it. -/
theorem exists_threshold_between {f : Fmt} (h : f.supported = true) :
    ∃ t, 0 < t ∧ codeMag f (codeLimit f - 1) = overflowThreshold f - t ∧
      codeMag f (codeLimit f) = overflowThreshold f + t := by
  obtain ⟨e, he⟩ := Nat.exists_eq_add_of_le' (one_lt_emaxc h)
  have hpos := Nat.one_le_two_pow (n := f.mbits)
  have hlimit : codeLimit f = e * 2 ^ f.mbits + 2 ^ (f.mbits + 1) := by
    rw [codeLimit, he]
    ring
  have hpred : codeLimit f - 1 = e * 2 ^ f.mbits + (2 ^ (f.mbits + 1) - 1) := by
    rw [hlimit, Nat.add_sub_assoc Nat.one_le_two_pow]
  have hlo : 2 ^ f.mbits ≤ 2 ^ (f.mbits + 1) - 1 := by
    rw [pow_succ]
    omega
  refine ⟨2 ^ e * minUnit f / 2, half_pos (ulp_pos f e), ?_, ?_⟩
  · rw [hpred, codeMag_binade f (.inr hlo) (Nat.sub_le ..), overflowThreshold_eq he, Nat.cast_sub Nat.one_le_two_pow]
    push_cast
    ring
  · rw [hlimit, codeMag_binade f (.inr (hlo.trans (Nat.sub_le ..))) le_rfl, overflowThreshold_eq he]
    push_cast
    ring

/-- R122's last point on codes: below the threshold the largest finite code is nearer than the code after it, above the threshold farther, and at the threshold it is the odd one of the two. -/
theorem codeLimit_le_rne_iff {f : Fmt} (h : f.supported = true) {p : Nat} {n : ℚ} (hn : Binade f p n) (s : Bool) :
    codeLimit f ≤ p * 2 ^ f.mbits + roundMag .rne s n ↔ overflowThreshold f ≤ n * (2 ^ p * minUnit f) := by
  obtain ⟨t, ht, hbelow, habove⟩ := exists_threshold_between h
  have hmono := codeMag_strictMono f
  have hL := codeLimit_pos h
  constructor
  · intro hc
    by_contra hq
    have hle := hmono.monotone hc
    obtain ⟨hnear, -⟩ := hn.rne_nearest s (codeLimit f - 1)
    rw [hbelow, abs_of_nonpos (by linarith)] at hnear
    obtain hle' | hle' := le_abs.mp hnear <;> linarith
  · intro hq
    by_contra hc
    have hle := hmono.monotone (Nat.le_sub_one_of_lt (not_le.mp hc))
    obtain ⟨hnear, htie⟩ := hn.rne_nearest s (codeLimit f)
    rw [habove, abs_of_nonneg (by linarith)] at hnear htie
    obtain hle' | hle' := le_abs.mp hnear
    · linarith
    · have hodd : p * 2 ^ f.mbits + roundMag .rne s n = codeLimit f - 1 := hmono.injective (by linarith)
      have heven := htie (by rw [abs_of_nonpos (by linarith)]; linarith) (not_le.mp hc).ne'
      have hlimit : codeLimit f % 2 = 0 := Nat.mod_eq_zero_of_dvd ((two_dvd_two_pow_mbits h).mul_left _)
      rw [← code_mod_two h p, hodd] at heven
      omega

/-- Settles O20: below the threshold RNE's code is finite, no code is nearer, and at a tie its significand is even. -/
theorem roundToNearestGivesTheNearestMagnitude : Obligations.RoundToNearestGivesTheNearestMagnitude := by
  intro f s q h hq hlt
  obtain ⟨p, n, hn, rfl⟩ := exists_binade f hq
  have hc : p * 2 ^ f.mbits + roundMag .rne s n < codeLimit f := by
    rw [← not_le, codeLimit_le_rne_iff h hn]
    exact not_le.mpr hlt
  rw [hn.roundToFormat_eq h]
  refine ⟨_, value?_ofCode h s .rne hc, fun x w hw hs => ?_⟩
  obtain ⟨hnear, htie⟩ := hn.rne_nearest s (mag f x)
  rw [abs_value hw, abs_signFactor_mul s (codeMag_nonneg f _), ofCode_of_lt s _ hc]
  refine ⟨hnear, fun heq hne => ?_⟩
  have hmag : mag f x ≠ p * 2 ^ f.mbits + roundMag .rne s n := by
    rintro hmag
    rw [← hmag, ← hs, encOf_signOf_mag] at hne
    exact hne rfl
  rw [manOf_encOf, Nat.mod_mod_of_dvd _ (two_dvd_two_pow_mbits h), code_mod_two h]
  exact htie heq hmag

/-- Settles O23: RNE gives the infinity from `overflowThreshold` up, which is the rule's number in either format. -/
theorem nearestOverflowsExactlyFromHalfAnUlpAboveTheLargest :
    Obligations.NearestOverflowsExactlyFromHalfAnUlpAboveTheLargest := by
  have hthreshold {f : Fmt} (h : f.supported = true) (s : Bool) {q : ℚ} (hq : 0 < q) :
      roundToFormat f s q .rne = inf f s ↔ overflowThreshold f ≤ q := by
    obtain ⟨p, n, hn, rfl⟩ := exists_binade f hq
    rw [hn.roundToFormat_eq h, ofCode_eq_inf_iff rfl, codeLimit_le_rne_iff h hn]
  have h16 : overflowThreshold binary16 = 65520 := by
    simp only [overflowThreshold, Fmt.emaxc, Fmt.bias]
    norm_num
  have h32 : overflowThreshold binary32 = 2 ^ 128 - 2 ^ 103 := by
    simp only [overflowThreshold, Fmt.emaxc, Fmt.bias]
    norm_num
  refine fun s q hq => ⟨?_, ?_⟩
  · rw [hthreshold (by decide) s hq, h16]
  · rw [hthreshold (by decide) s hq, h32]

end Sys2Proof.Proofs

namespace Sys2Proof.Proofs

open Sys2Proof Sys2Proof.Machine

/-! ### The normalizer -/

theorem bit_of_lt {v i : Nat} (h : v < 2 ^ i) : bit v i = false := by
  simp [bit, Nat.div_eq_of_lt h]

theorem bit_of_top {v i : Nat} (hlo : 2 ^ i ≤ v) (hhi : v < 2 ^ (i + 1)) : bit v i = true := by
  have hdiv : v / 2 ^ i = 1 := Nat.div_eq_of_lt_le (by omega) (by rw [pow_succ] at hhi; omega)
  rw [bit, hdiv]
  rfl

/-- R101: the loop stops at the first shift that sets bit `M`, which is the `k`th. -/
theorem fpNormalize_zero_exp {f : Fmt} {m k : Nat} (hm : m ≠ 0) (hk : k + Nat.log 2 m = f.mbits) :
    fpNormalize f 0 m = (1 - (k : Int), m * 2 ^ k) ∧ 2 ^ f.mbits ≤ m * 2 ^ k ∧ m * 2 ^ k < 2 ^ (f.mbits + 1) := by
  have hlo : 2 ^ f.mbits ≤ m * 2 ^ k := by
    rw [← hk, Nat.add_comm, pow_add]
    exact Nat.mul_le_mul_right _ (Nat.pow_log_le_self 2 hm)
  have hhi : m * 2 ^ k < 2 ^ (f.mbits + 1) := by
    have hexp : f.mbits + 1 = Nat.log 2 m + 1 + k := by omega
    rw [hexp, pow_add 2 (Nat.log 2 m + 1)]
    exact Nat.mul_lt_mul_of_pos_right (Nat.lt_pow_succ_log_self one_lt_two m) (Nat.two_pow_pos k)
  obtain ⟨j, hj, heq, hstop, hbefore⟩ := normalizeLoop_spec f f.mbits 1 m
  have hjk : j = k := by
    obtain hlt | rfl | hgt := lt_trichotomy j k
    · have hsmall : m * 2 ^ j < 2 ^ f.mbits := by
        have hsucc : m * 2 ^ (j + 1) ≤ m * 2 ^ k := Nat.mul_le_mul_left _ (Nat.pow_le_pow_right two_pos hlt)
        rw [pow_succ, ← Nat.mul_assoc] at hsucc
        rw [pow_succ] at hhi
        omega
      rw [bit_of_lt hsmall] at hstop
      exact absurd (hstop.resolve_left (by decide)) (by omega)
    · rfl
    · exact absurd (hbefore k hgt) (by simp [bit_of_top hlo hhi])
  rw [← hjk] at hlo hhi ⊢
  exact ⟨by simp [fpNormalize, hm, heq], hlo, hhi⟩

theorem fpNormalize_of_exp_ne_zero (f : Fmt) {e : Nat} (m : Nat) (he : e ≠ 0) :
    fpNormalize f e m = ((e : Int), m + 2 ^ f.mbits) := if_pos he

theorem exists_shift_count {f : Fmt} {m : Nat} (hm : m ≠ 0) (hlt : m < 2 ^ f.mbits) :
    ∃ k, k + Nat.log 2 m = f.mbits ∧ 1 ≤ k ∧ k ≤ f.mbits := by
  have hlog := Nat.log_lt_of_lt_pow hm hlt
  exact ⟨f.mbits - Nat.log 2 m, by omega, by omega, by omega⟩

/-- What the normalizer makes of a finite nonzero encoding: an exponent and a significand with the implicit bit set that stand for the same magnitude (R101). -/
structure NormalForm (f : Fmt) (x : BitVec f.W) (en : Int) (sig : Nat) : Prop where
  normalize : fpNormalize f (expOf f x) (manOf f x) = (en, sig)
  le_sig : 2 ^ f.mbits ≤ sig
  sig_lt : sig < 2 ^ (f.mbits + 1)
  le_en : 1 - (f.mbits : Int) ≤ en
  en_le : en ≤ (f.emaxc : Int) - 1
  units : (codeUnits f (mag f x) : ℚ) = sig * (2 : ℚ) ^ (en - 1)

theorem exists_normalForm {f : Fmt} (h : f.supported = true) {x : BitVec f.W} (hfin : mag f x < codeLimit f)
    (hne : mag f x ≠ 0) : ∃ en sig, NormalForm f x en sig := by
  have hm := manOf_lt f x
  have hmax := one_lt_emaxc h
  rw [← exp_lt_emaxc_iff, mag_div] at hfin
  cases he : expOf f x with
  | zero =>
    have hmag : mag f x = manOf f x := by rw [mag_eq, he, Nat.mul_zero, Nat.zero_add]
    rw [hmag] at hne
    obtain ⟨k, hk, h1, hM⟩ := exists_shift_count hne hm
    obtain ⟨hnorm, hlo, hhi⟩ := fpNormalize_zero_exp hne hk
    refine ⟨1 - k, manOf f x * 2 ^ k, he ▸ hnorm, hlo, hhi, by omega, by omega, ?_⟩
    rw [hmag, codeUnits_of_exp_zero f hm, sub_sub_cancel_left, zpow_neg, zpow_natCast, Nat.cast_mul, Nat.cast_pow,
      Nat.cast_ofNat, mul_inv_cancel_right₀ (by positivity)]
  | succ p =>
    rw [he] at hfin
    have hmag : mag f x = (p + 1) * 2 ^ f.mbits + manOf f x := by rw [mag_eq, he, Nat.mul_comm]
    refine ⟨(p + 1 : ℕ), manOf f x + 2 ^ f.mbits, by rw [he, fpNormalize_of_exp_ne_zero f _ p.succ_ne_zero],
      Nat.le_add_left .., by rw [pow_succ]; omega, by omega, by omega, ?_⟩
    rw [hmag, codeUnits_of_exp_succ f p hm, Nat.cast_succ, add_sub_cancel_right, zpow_natCast]
    push_cast
    ring

/-- A nonzero value has a nonzero code. -/
theorem mag_ne_zero_of_value {f : Fmt} {x : BitVec f.W} {v : ℚ} (hv : value? f x = some v) (h0 : v ≠ 0) :
    mag f x ≠ 0 := by
  rw [← codeMag_ne_zero_iff, ← abs_value hv]
  exact abs_ne_zero.mpr h0

theorem exists_normalForm_of_value {f : Fmt} (h : f.supported = true) {x : BitVec f.W} {v : ℚ}
    (hv : value? f x = some v) (h0 : v ≠ 0) : ∃ en sig, NormalForm f x en sig :=
  exists_normalForm h (mag_lt_codeLimit h hv) (mag_ne_zero_of_value hv h0)

/-- R101: the magnitude of the pair. -/
theorem NormalForm.codeMag_eq {f : Fmt} {x : BitVec f.W} {en : Int} {sig : Nat} (hx : NormalForm f x en sig) :
    codeMag f (mag f x) = sig * (2 : ℚ) ^ (en - f.bias - f.mbits) := by
  rw [codeMag, hx.units, minUnit, mul_assoc, ← zpow_add₀ two_ne_zero]
  congr 2
  ring

/-- Settles O12: the facts of the normal form, and for a subnormal the count of the shifts. -/
theorem normalizerKeepsTheValueAndSetsTheImplicitBit : Obligations.NormalizerKeepsTheValueAndSetsTheImplicitBit := by
  intro f x v h hv h0
  obtain ⟨en, sig, hx⟩ := exists_normalForm_of_value h hv h0
  rw [hx.normalize]
  refine ⟨?_, hx.le_sig, hx.sig_lt, hx.le_en, hx.en_le, fun hs => ?_⟩
  · rw [mul_assoc, ← hx.codeMag_eq]
    exact ((value?_eq_some_iff h).mp hv).2
  · obtain ⟨he, hm⟩ : expOf f x = 0 ∧ manOf f x ≠ 0 := by simpa [isSubnormal] using hs
    obtain ⟨k, hk, h1, hM⟩ := exists_shift_count hm (manOf_lt f x)
    obtain ⟨hnorm, -, -⟩ := fpNormalize_zero_exp hm hk
    rw [← he, hx.normalize] at hnorm
    exact ⟨k, hk, h1, hM, congrArg Prod.fst hnorm⟩

end Sys2Proof.Proofs

namespace Sys2Proof.Proofs

open Sys2Proof Sys2Proof.Machine

/-! ### The resolver against the exact rounding function -/

/-- R110 and R108: with a normal exponent the resolver answers by the code of exponent and significand. -/
theorem fpResolve_of_exp {f : Fmt} (s : Bool) {e m : Nat} (he : 0 < e) (hm : m < 2 ^ f.mbits) (xb : Nat) (sin : Bool)
    (rm : RoundingMode) : fpResolve f s e (2 ^ f.mbits + m) xb sin rm = ofCode f s rm (e * 2 ^ f.mbits + m) := by
  rw [ofCode_of_exp f s rm e hm]
  split_ifs with hmax
  · exact fpResolve_of_overflow s _ xb sin rm (by exact_mod_cast hmax)
  · rw [fpResolve_of_normal s _ xb sin rm (by exact_mod_cast not_le.mp hmax) (by exact_mod_cast he), Int.toNat_natCast,
      Nat.add_sub_cancel_left]

/-- A rounded significand with a normal exponent, through carry and resolver, gives its code's result. -/
theorem roundThenResolve_of_pos {f : Fmt} (s : Bool) (p : Nat) {sig : Nat} (hlo : 2 ^ f.mbits ≤ sig)
    (hhi : sig < 2 ^ (f.mbits + 1)) (rb sb : Bool) (rm : RoundingMode) :
    roundThenResolve f s (p + 1) sig rb sb rm = ofCode f s rm (p * 2 ^ f.mbits + fpRound sig rm rb sb s) := by
  obtain ⟨hlo', hhi'⟩ : 2 ^ f.mbits ≤ fpRound sig rm rb sb s ∧ fpRound sig rm rb sb s ≤ 2 ^ (f.mbits + 1) := by
    obtain hr | hr := fpRound_eq_or sig rm rb sb s <;> omega
  obtain ⟨j, m, hm, hcarry, hr⟩ := exists_carry_eq f (p + 1) hlo' hhi'
  have hexp : (p : Int) + 1 + j = ((p + 1 + j : ℕ) : Int) := by push_cast; rfl
  have hcode : p * 2 ^ f.mbits + ((j + 1) * 2 ^ f.mbits + m) = (p + 1 + j) * 2 ^ f.mbits + m := by ring
  simp only [roundThenResolve, hcarry]
  rw [hexp, fpResolve_of_exp s (by omega) hm, hr, hcode]

/-- A subnormal result, or the rounding up to the least normal number (R109), by its code. -/
theorem ofCode_subnormal {f : Fmt} (h : f.supported = true) (s : Bool) (rm : RoundingMode) {t : Nat}
    (ht : t ≤ 2 ^ f.mbits) : ofCode f s rm t = if t = 2 ^ f.mbits then pack f s 1 0 else pack f s 0 t := by
  have hmax := one_lt_emaxc h
  split_ifs with heq
  · have hcode : t = 1 * 2 ^ f.mbits + 0 := by rw [heq, one_mul, Nat.add_zero]
    rw [hcode, ofCode_of_exp f s rm 1 (Nat.two_pow_pos _), if_neg (not_le.mpr hmax)]
  · have hcode : t = 0 * 2 ^ f.mbits + t := by rw [zero_mul, Nat.zero_add]
    rw [hcode, ofCode_of_exp f s rm 0 (lt_of_le_of_ne ht heq), if_neg (not_le.mpr (Nat.zero_lt_of_lt hmax)), ← hcode]

section

variable {f : Fmt} (h : f.supported = true) (s : Bool) {e : Int} {sig xb i : Nat} {sin : Bool} (rm : RoundingMode) {q : ℚ}
  (hi : 1 - e + xb = i + 1) (hxb : xb ≤ i) (hhi : sig < 2 ^ (f.mbits + xb + 1)) (h0 : 0 ≤ q) (h1 : q < 1)
  (hq : sin = true ↔ q ≠ 0)

include hhi h1 in
/-- A significand with its tail, shifted right by `i + 1`, lies below the power of two it is shifted to. -/
theorem shifted_lt {k : Nat} (hk : f.mbits + xb ≤ k + i) : (sig + q) / 2 ^ (i + 1) < 2 ^ k := by
  have hsig : (sig : ℚ) + 1 ≤ 2 ^ (f.mbits + xb + 1) := by exact_mod_cast hhi
  have hpow : (2 : ℚ) ^ (f.mbits + xb + 1) ≤ 2 ^ (k + (i + 1)) := pow_le_pow_right₀ one_le_two (by omega)
  rw [div_lt_iff₀ (by positivity), ← pow_add]
  linarith

include h hi hxb hhi h0 h1 hq

/-- R109: the underflow branch rounds the shifted significand with its tail once; a shift out of sight leaves less than half a unit. -/
theorem resolveUnderflow_eq (hpos : 0 < sig) :
    resolveUnderflow f s e sig xb sin rm = ofCode f s rm (roundMag rm s ((sig + q) / 2 ^ (i + 1))) := by
  have hn0 : 0 < (sig + q) / 2 ^ (i + 1) := div_pos (add_pos_of_pos_of_nonneg (by exact_mod_cast hpos) h0) (by positivity)
  have hlt := shifted_lt (k := f.mbits) (i := i) hhi h1 (by omega)
  have hle := roundMag_le rm s (k := 2 ^ f.mbits) hn0.le (by exact_mod_cast hlt)
  have hshift : (1 - e + xb).toNat = i + 1 := by omega
  have ht : (if i + 1 ≥ f.mbits + xb + 2 then fpRound 0 rm false true s
      else fpRound (sig / 2 ^ (i + 1)) rm (bit sig i) (low sig i != 0 || sin) s) =
      roundMag rm s ((sig + q) / 2 ^ (i + 1)) := by
    split_ifs with hout
    · refine (roundMag_of_lt_half rm s hn0 ?_).symm
      obtain ⟨k, rfl⟩ : ∃ k, i = f.mbits + xb + 1 + k := ⟨i - (f.mbits + xb + 1), by omega⟩
      have hsig : (sig : ℚ) + 1 ≤ 2 ^ (f.mbits + xb + 1) := by exact_mod_cast hhi
      have hone : (1 : ℚ) ≤ 2 ^ k := one_le_pow₀ one_le_two
      rw [div_lt_iff₀ (by positivity), pow_succ, pow_add _ _ k]
      nlinarith
    · exact (roundMag_shift rm s sig i h0 h1 hq).symm
  rw [ofCode_subnormal h s rm hle, ← ht]
  simp only [resolveUnderflow, hshift, Nat.add_sub_cancel]

/-- R107 to R111 with an exponent that is not normal: the resolver rounds exactly, once. -/
theorem fpResolve_of_shift (hpos : 0 < sig) :
    fpResolve f s e sig xb sin rm = roundToFormat f s ((sig + q) / 2 ^ (i + 1) * (2 ^ 0 * minUnit f)) rm := by
  have hmax := one_lt_emaxc h
  have hn : Binade f 0 ((sig + q) / 2 ^ (i + 1)) :=
    ⟨div_pos (add_pos_of_pos_of_nonneg (by exact_mod_cast hpos) h0) (by positivity), .inl rfl,
      shifted_lt (k := f.mbits + 1) (i := i) hhi h1 (by omega)⟩
  rw [fpResolve_of_underflow s sig xb sin rm (by omega) (by omega),
    resolveUnderflow_eq h s rm hi hxb hhi h0 h1 hq hpos, hn.roundToFormat_eq h, zero_mul, Nat.zero_add]

end

/-- R107 to R111 for `e <= 0`: the magnitude `(sig + q) * 2^(e - BIAS - M - xb)` is rounded exactly. -/
theorem fpResolve_of_nonpos {f : Fmt} (h : f.supported = true) (s : Bool) {e : Int} {sig xb : Nat} {sin : Bool}
    (rm : RoundingMode) {q : ℚ} (he : e ≤ 0) (hlo : 0 < sig) (hhi : sig < 2 ^ (f.mbits + xb + 1)) (h0 : 0 ≤ q)
    (h1 : q < 1) (hq : sin = true ↔ q ≠ 0) :
    fpResolve f s e sig xb sin rm = roundToFormat f s ((sig + q) * (2 : ℚ) ^ (e - f.bias - f.mbits - xb)) rm := by
  obtain ⟨k, hk⟩ := Int.eq_ofNat_of_zero_le (neg_nonneg.mpr he)
  rw [fpResolve_of_shift h s rm (i := k + xb) (by push_cast; omega) (Nat.le_add_left ..) hhi h0 h1 hq hlo,
    two_pow_mul_minUnit, div_mul_eq_mul_div, mul_div_assoc, ← zpow_natCast, ← zpow_sub₀ two_ne_zero]
  congr 3
  push_cast
  omega

/-! ### Rounding before resolving -/

/-- Quotient and remainder together are the exact ratio. -/
theorem quotient_add_remainder (v : Nat) {d : Nat} (hd : 0 < d) : ((v / d : ℕ) : ℚ) + (v % d : ℕ) / d = v / d := by
  have hdq : (d : ℚ) ≠ 0 := by exact_mod_cast hd.ne'
  rw [eq_div_iff hdq, add_mul, div_mul_cancel₀ _ hdq]
  exact_mod_cast Nat.div_add_mod' v d

/-- A natural number is a natural number and no tail. -/
theorem eq_natCast_of_add_lt_one {v k : Nat} {t : ℚ} (h0 : 0 ≤ t) (h1 : t < 1) (h : (v : ℚ) + t = k) :
    v = k ∧ t = 0 := by
  have hle : v ≤ k := by
    rw [← @Nat.cast_le ℚ, ← h]
    exact le_add_of_nonneg_right h0
  have hlt : k < v + 1 := by
    rw [← @Nat.cast_lt ℚ, ← h]
    push_cast
    linarith
  obtain rfl : v = k := by omega
  exact ⟨rfl, by linarith⟩

section

variable {f : Fmt} (h : f.supported = true) (s : Bool) (rm : RoundingMode)
include h

/-- R177, R198, R151 for a normal exponent: significand, round bit and a rest of less than half a unit are rounded exactly. -/
theorem roundThenResolve_of_parts (p : Nat) {sig : Nat} (hlo : 2 ^ f.mbits ≤ sig) (hhi : sig < 2 ^ (f.mbits + 1))
    (rb sb : Bool) {r : ℚ} (h0 : 0 ≤ r) (h1 : r < 1 / 2) (hsb : sb = true ↔ r ≠ 0) :
    roundThenResolve f s (p + 1) sig rb sb rm =
      roundToFormat f s ((sig + ((b2n rb : ℚ) / 2 + r)) * (2 ^ p * minUnit f)) rm := by
  have hlo' : (2 : ℚ) ^ f.mbits ≤ sig := by exact_mod_cast hlo
  have hhi' : (sig : ℚ) + 1 ≤ 2 ^ (f.mbits + 1) := by exact_mod_cast hhi
  have hrb : (b2n rb : ℚ) ≤ 1 := by cases rb <;> simp [b2n]
  have hrb0 : (0 : ℚ) ≤ b2n rb := Nat.cast_nonneg _
  have hpos : (0 : ℚ) < 2 ^ f.mbits := by positivity
  have hn : Binade f p (sig + ((b2n rb : ℚ) / 2 + r)) := ⟨by linarith, .inr (by linarith), by linarith⟩
  rw [roundThenResolve_of_pos s p hlo hhi, hn.roundToFormat_eq h, roundMag_of_parts rm s sig rb sb h0 h1 hsb]

variable {v i : Nat} (hlo : 2 ^ (f.mbits + i + 1) ≤ v) (hhi : v < 2 ^ (f.mbits + i + 2))
include hlo hhi

/-- The same for a wider number with a tail, whose `i + 1` low bits are the round bit and the rest. -/
theorem roundThenResolve_shift (p : Nat) {tail : Bool} {t : ℚ} (h0 : 0 ≤ t) (h1 : t < 1)
    (htail : tail = true ↔ t ≠ 0) :
    roundThenResolve f s (p + 1) (v / 2 ^ (i + 1)) (bit v i) (low v i != 0 || tail) rm =
      roundToFormat f s ((v + t) / 2 ^ (i + 1) * (2 ^ p * minUnit f)) rm := by
  have hpow : 0 < 2 ^ (i + 1) := Nat.two_pow_pos _
  have hvlo : 2 ^ f.mbits ≤ v / 2 ^ (i + 1) := by
    rwa [Nat.le_div_iff_mul_le hpow, ← pow_add, ← Nat.add_assoc]
  have hvhi : v / 2 ^ (i + 1) < 2 ^ (f.mbits + 1) := by
    rw [Nat.div_lt_iff_lt_mul hpow, ← pow_add]
    exact hhi.trans_eq (by congr 1; omega)
  rw [roundThenResolve_of_parts h s rm p hvlo hvhi _ _ (by positivity) (low_add_tail_lt_half v i h1)
    (sticky_iff_rest_ne_zero v i h0 htail), ← shift_add_tail_eq_parts]

/-- With an exponent that is not normal nothing may be rounded off before the resolver: here the bits below the significand are all zero. -/
theorem roundThenResolve_exact {e : Int} (he : e ≤ 0) {j : Nat} (hj : v = j * 2 ^ (i + 1)) :
    roundThenResolve f s e (v / 2 ^ (i + 1)) (bit v i) (low v i != 0 || false) rm =
      roundToFormat f s (j * (2 : ℚ) ^ (e - f.bias - f.mbits)) rm := by
  have hpow : 0 < 2 ^ (i + 1) := Nat.two_pow_pos _
  have hsig : v / 2 ^ (i + 1) = j := by rw [hj, Nat.mul_div_cancel _ hpow]
  have hv : v = j * 2 * 2 ^ i := by
    rw [hj]
    ring
  have hbit : bit v i = false := by
    rw [bit, hv, Nat.mul_div_cancel _ (Nat.two_pow_pos i), Nat.mul_mod_left]
    rfl
  have hlow : low v i = 0 := by rw [low, hv, Nat.mul_mod_left]
  have hjlo : 0 < j := by
    refine Nat.pos_of_ne_zero fun h0 => ?_
    have := Nat.two_pow_pos (f.mbits + i + 1)
    rw [hj, h0, Nat.zero_mul] at hlo
    omega
  have hjhi : j < 2 ^ (f.mbits + 1) := by
    have hexp : f.mbits + i + 2 = f.mbits + 1 + (i + 1) := by omega
    rw [hj, hexp, pow_add _ (f.mbits + 1)] at hhi
    exact Nat.lt_of_mul_lt_mul_right hhi
  rw [hsig, hbit, hlow, roundThenResolve, bne_self_eq_false, Bool.or_false, fpRound_exact, carry_of_ne f e hjhi.ne,
    fpResolve_of_nonpos h s rm he hjlo (by simpa using hjhi) le_rfl zero_lt_one (by simp), Nat.cast_zero, sub_zero, add_zero]

/-- Round and resolve is the exact rounding, if a significand whose exponent is not normal has nothing to be rounded off. -/
theorem roundThenResolve_eq {e : Int} {tail : Bool} {t : ℚ} (h0 : 0 ≤ t) (h1 : t < 1) (htail : tail = true ↔ t ≠ 0)
    (hwhole : e ≤ 0 → ∃ j : Nat, (v + t) / 2 ^ (i + 1) = j) :
    roundThenResolve f s e (v / 2 ^ (i + 1)) (bit v i) (low v i != 0 || tail) rm =
      roundToFormat f s ((v + t) / 2 ^ (i + 1) * (2 : ℚ) ^ (e - f.bias - f.mbits)) rm := by
  obtain he | he := le_or_gt e 0
  · obtain ⟨j, hj⟩ := hwhole he
    obtain ⟨hv, ht⟩ : v = j * 2 ^ (i + 1) ∧ t = 0 := by
      rw [div_eq_iff (by positivity)] at hj
      exact eq_natCast_of_add_lt_one h0 h1 (by exact_mod_cast hj)
    have htail' : tail = false := by simpa [ht] using htail
    rw [htail', hj, roundThenResolve_exact h s rm hlo hhi he hv]
  · obtain ⟨p, rfl⟩ : ∃ p : Nat, e = p + 1 := ⟨(e - 1).toNat, by omega⟩
    rw [roundThenResolve_shift h s rm hlo hhi p h0 h1 htail, two_pow_mul_minUnit]

end

section

variable {f : Fmt} (h : f.supported = true) (s : Bool) (rm : RoundingMode) {w : Nat}
include h

/-- R177, R178, R198, R199: whether it rounds here or leaves it to the resolver, the shared end of multiply and divide rounds a significand of `P + 1` bits with its tail once and exactly. -/
theorem roundOrDefer_eq (hlo : 2 ^ (f.mbits + 1) ≤ w) (hhi : w < 2 ^ (f.mbits + 2)) (e : Int) {tail : Bool} {t : ℚ}
    (h0 : 0 ≤ t) (h1 : t < 1) (htail : tail = true ↔ t ≠ 0) :
    roundOrDefer f s e w tail rm = roundToFormat f s ((w + t) * (2 : ℚ) ^ (e - f.bias - f.mbits - 1)) rm := by
  obtain he | he := le_or_gt e 0
  · have hpos : 0 < w := (Nat.two_pow_pos _).trans_le hlo
    rw [roundOrDefer_of_nonpos s w tail rm he, fpResolve_of_nonpos h s rm he hpos hhi h0 h1 htail, Nat.cast_one]
  · have hlow : (low w 0 != 0 || tail) = tail := by simp [low, Nat.mod_one]
    have hround := roundThenResolve_eq h s rm (i := 0) hlo hhi h0 h1 htail (e := e) (fun hle => absurd he (not_lt.mpr hle))
    rw [roundOrDefer_of_pos s w tail rm he, zpow_sub_one₀ two_ne_zero, mul_comm _ (2 : ℚ)⁻¹,
      ← mul_assoc, ← div_eq_mul_inv]
    rwa [hlow, zero_add, pow_one, pow_one] at hround

/-- The same for a number whose `k` low bits are only looked at for the sticky bit. -/
theorem roundOrDefer_shift {v k : Nat} (hlo : 2 ^ (f.mbits + 1 + k) ≤ v) (hhi : v < 2 ^ (f.mbits + 2 + k)) (e : Int) :
    roundOrDefer f s e (v / 2 ^ k) (low v k != 0) rm =
      roundToFormat f s (v * (2 : ℚ) ^ (e - f.bias - f.mbits - 1 - k)) rm := by
  have hpow : 0 < 2 ^ k := Nat.two_pow_pos k
  have hlow : (low v k : ℚ) < 2 ^ k := by exact_mod_cast low_lt v k
  have hdiv : ((v / 2 ^ k : ℕ) : ℚ) + low v k / 2 ^ k = v / 2 ^ k := by exact_mod_cast quotient_add_remainder v hpow
  rw [roundOrDefer_eq h s rm (by rwa [Nat.le_div_iff_mul_le hpow, ← pow_add])
    (by rwa [Nat.div_lt_iff_lt_mul hpow, ← pow_add]) e (t := low v k / 2 ^ k) (by positivity)
    (by rwa [div_lt_one (by positivity)]) (by simp), hdiv, zpow_sub₀ two_ne_zero _ (k : Int), zpow_natCast, mul_div_assoc',
    div_mul_eq_mul_div]

end

end Sys2Proof.Proofs

namespace Sys2Proof.Proofs

open Sys2Proof Sys2Proof.Machine

/-! ### Finite nonzero operands -/

section

variable {f : Fmt} (h : f.supported = true) {x : BitVec f.W} {v : ℚ} (hv : value? f x = some v)
include h hv

theorem isNaN_of_value : isNaN f x = false := by
  simp [isNaN, (expOf_lt_emaxc_of_value? h hv).ne]

theorem isInf_of_value : isInf f x = false := by
  simp [isInf, (expOf_lt_emaxc_of_value? h hv).ne]

omit h in
theorem isZero_of_value (h0 : v ≠ 0) : isZero f x = false := by
  rw [← Bool.not_eq_true]
  intro hz
  exact h0 (Option.some.inj (hv.symm.trans (if_pos hz)))

end

/-- The sign a product or a quotient of two signed magnitudes has, as the rounding takes it. -/
theorem roundToFormat_signed (f : Fmt) (s : Bool) {m : ℚ} (hm : 0 < m) (rm : RoundingMode) :
    roundToFormat f (decide (signFactor s * m < 0)) |signFactor s * m| rm = roundToFormat f s m rm := by
  have hs : decide (signFactor s * m < 0) = s := by
    cases s <;> simp [signFactor, hm, hm.le]
  rw [hs, abs_signFactor_mul s hm.le]

theorem signFactor_mul (s t : Bool) : signFactor s * signFactor t = signFactor (s ^^ t) := by
  cases s <;> cases t <;> simp [signFactor]

theorem signFactor_div (s t : Bool) : signFactor s / signFactor t = signFactor (s ^^ t) := by
  cases s <;> cases t <;> simp [signFactor]

theorem NormalForm.codeMag_pos {f : Fmt} {x : BitVec f.W} {en : Int} {sig : Nat} (hx : NormalForm f x en sig) :
    0 < codeMag f (mag f x) := by
  have hsig : 0 < sig := (Nat.two_pow_pos _).trans_le hx.le_sig
  rw [hx.codeMag_eq]
  positivity

/-! ### FMUL -/

/-- R175 to R178: the exact product, in its high or its low position, is rounded once. -/
theorem mulFinite_eq {f : Fmt} (h : f.supported = true) {a b : BitVec f.W} {ea eb : Int} {sa sb : Nat}
    (ha : NormalForm f a ea sa) (hb : NormalForm f b eb sb) (rm : RoundingMode) :
    mulFinite f a b rm =
      roundToFormat f (signOf f a ^^ signOf f b) (codeMag f (mag f a) * codeMag f (mag f b)) rm := by
  have hM := qbit_lt_mbits h
  have hlo : 2 ^ (2 * f.mbits) ≤ sa * sb := by
    rw [two_mul, pow_add]
    exact Nat.mul_le_mul ha.le_sig hb.le_sig
  have hhi : sa * sb < 2 ^ (2 * f.mbits + 2) := by
    have hexp : 2 * f.mbits + 2 = (f.mbits + 1) + (f.mbits + 1) := by ring
    rw [hexp, pow_add]
    exact Nat.mul_lt_mul'' ha.sig_lt hb.sig_lt
  have hprod : codeMag f (mag f a) * codeMag f (mag f b) =
      (sa * sb : ℕ) * (2 : ℚ) ^ (ea + eb - 2 * f.bias - 2 * f.mbits) := by
    rw [ha.codeMag_eq, hb.codeMag_eq, mul_mul_mul_comm, ← zpow_add₀ two_ne_zero, Nat.cast_mul]
    congr 2
    ring
  simp only [mulFinite, ha.normalize, hb.normalize]
  by_cases hhigh : 2 ^ (2 * f.mbits + 1) ≤ sa * sb
  · rw [if_pos hhigh, if_pos hhigh, Nat.add_sub_cancel, hprod,
      roundOrDefer_shift h _ rm ((Nat.pow_le_pow_right two_pos (by omega)).trans hhigh)
        (hhi.trans_le (Nat.pow_le_pow_right two_pos (by omega)))]
    congr 3
    ring
  · rw [if_neg hhigh, if_neg hhigh, hprod,
      roundOrDefer_shift h _ rm ((Nat.pow_le_pow_right two_pos (by omega)).trans hlo)
        ((not_le.mp hhigh).trans_le (Nat.pow_le_pow_right two_pos (by omega)))]
    congr 3
    omega

theorem fpMultiplier_of_values {f : Fmt} (h : f.supported = true) {a b : BitVec f.W} {va vb : ℚ}
    (ha : value? f a = some va) (hb : value? f b = some vb) (ha0 : va ≠ 0) (hb0 : vb ≠ 0) (rm : RoundingMode) :
    fpMultiplier f a b rm = roundToFormat f (decide (va * vb < 0)) |va * vb| rm := by
  obtain ⟨ea, sa, hna⟩ := exists_normalForm_of_value h ha ha0
  obtain ⟨eb, sb, hnb⟩ := exists_normalForm_of_value h hb hb0
  have hval : va * vb = signFactor (signOf f a ^^ signOf f b) * (codeMag f (mag f a) * codeMag f (mag f b)) := by
    rw [((value?_eq_some_iff h).mp ha).2, ((value?_eq_some_iff h).mp hb).2, mul_mul_mul_comm, signFactor_mul]
  rw [fpMultiplier_of_not_special rm (isNaN_of_value h ha) (isNaN_of_value h hb) (isInf_of_value h ha)
    (isInf_of_value h hb) (isZero_of_value ha ha0) (isZero_of_value hb hb0), mulFinite_eq h hna hnb, hval,
    roundToFormat_signed f _ (mul_pos hna.codeMag_pos hnb.codeMag_pos)]

/-- Settles O40: the datapath's product is exact, and is rounded once. -/
theorem fmulIsTheExactRoundingOfTheProduct : Obligations.FmulIsTheExactRoundingOfTheProduct := by
  intro s rm va vb h ha hb ha0 hb0
  rw [exec_fmul, drive_of_supported _ h, fpMultiplier_of_values h ha hb ha0 hb0]

/-! ### FDIV -/

/-- R196: the pre-shift keeps the dividend and brings the ratio into `[1, 2)`. -/
theorem exists_preShift_eq {f : Fmt} {sa sb : Nat} (ea : Int) (ha : 2 ^ f.mbits ≤ sa) (ha' : sa < 2 ^ (f.mbits + 1))
    (hb : 2 ^ f.mbits ≤ sb) (hb' : sb < 2 ^ (f.mbits + 1)) :
    ∃ pa e, preShift sa sb ea = (pa, e) ∧ sb ≤ pa ∧ pa < 2 * sb ∧ (pa : ℚ) * (2 : ℚ) ^ e = sa * (2 : ℚ) ^ ea := by
  rw [pow_succ] at ha' hb'
  obtain hlt | hge := lt_or_ge sa sb
  · refine ⟨_, _, preShift_of_lt ea hlt, by omega, by omega, ?_⟩
    rw [zpow_sub_one₀ two_ne_zero]
    push_cast
    ring
  · exact ⟨_, _, preShift_of_ge ea hge, hge, by omega, rfl⟩

/-- R197: the quotient of the widened dividend has `P + 1` bits. -/
theorem quotient_bounds {sb pa k : Nat} (hlo : sb ≤ pa) (hhi : pa < 2 * sb) :
    2 ^ k ≤ pa * 2 ^ k / sb ∧ pa * 2 ^ k / sb < 2 ^ (k + 1) := by
  have hsb : 0 < sb := by omega
  rw [Nat.le_div_iff_mul_le hsb, Nat.div_lt_iff_lt_mul hsb, pow_succ]
  constructor
  · rw [mul_comm]
    exact Nat.mul_le_mul_right _ hlo
  · calc
      pa * 2 ^ k < 2 * sb * 2 ^ k := Nat.mul_lt_mul_of_pos_right hhi (Nat.two_pow_pos k)
      _ = 2 ^ k * 2 * sb := by ring

/-- R196 to R199: quotient and remainder are the exact ratio, which is rounded once. -/
theorem divFinite_eq {f : Fmt} (h : f.supported = true) {a b : BitVec f.W} {ea eb : Int} {sa sb : Nat}
    (ha : NormalForm f a ea sa) (hb : NormalForm f b eb sb) (rm : RoundingMode) :
    divFinite f a b rm =
      roundToFormat f (signOf f a ^^ signOf f b) (codeMag f (mag f a) / codeMag f (mag f b)) rm := by
  obtain ⟨pa, e, hpre, hle, hlt, hval⟩ := exists_preShift_eq ea ha.le_sig ha.sig_lt hb.le_sig hb.sig_lt
  obtain ⟨hqlo, hqhi⟩ := quotient_bounds (k := f.mbits + 1) hle hlt
  have hsb : 0 < sb := (Nat.two_pow_pos _).trans_le hb.le_sig
  have hsbq : (sb : ℚ) ≠ 0 := by exact_mod_cast hsb.ne'
  have hratio : codeMag f (mag f a) / codeMag f (mag f b) = pa * (2 : ℚ) ^ e / (sb * (2 : ℚ) ^ eb) := by
    rw [ha.codeMag_eq, hb.codeMag_eq, hval]
    simp only [zpow_sub₀ (two_ne_zero' ℚ)]
    field_simp
  simp only [divFinite, ha.normalize, hb.normalize, hpre]
  have hrem : ((pa * 2 ^ (f.mbits + 1) % sb : ℕ) : ℚ) < sb := by exact_mod_cast Nat.mod_lt _ hsb
  rw [roundOrDefer_eq h _ rm hqlo hqhi _ (t := (pa * 2 ^ (f.mbits + 1) % sb : ℕ) / sb) (by positivity)
    (by rwa [div_lt_one (by exact_mod_cast hsb)]) (by simp [hsbq]), quotient_add_remainder _ hsb, hratio]
  congr 1
  have hexp : e - eb + f.bias - f.bias - f.mbits - 1 = e - eb - (f.mbits + 1 : ℕ) := by push_cast; ring
  rw [hexp, zpow_sub₀ two_ne_zero, zpow_natCast, zpow_sub₀ two_ne_zero]
  push_cast
  field_simp

theorem fpDivider_of_values {f : Fmt} (h : f.supported = true) {a b : BitVec f.W} {va vb : ℚ}
    (ha : value? f a = some va) (hb : value? f b = some vb) (ha0 : va ≠ 0) (hb0 : vb ≠ 0) (rm : RoundingMode) :
    fpDivider f a b rm = roundToFormat f (decide (va / vb < 0)) |va / vb| rm := by
  obtain ⟨ea, sa, hna⟩ := exists_normalForm_of_value h ha ha0
  obtain ⟨eb, sb, hnb⟩ := exists_normalForm_of_value h hb hb0
  have hval : va / vb = signFactor (signOf f a ^^ signOf f b) * (codeMag f (mag f a) / codeMag f (mag f b)) := by
    rw [((value?_eq_some_iff h).mp ha).2, ((value?_eq_some_iff h).mp hb).2, mul_div_mul_comm, signFactor_div]
  rw [fpDivider_of_not_special rm (isNaN_of_value h ha) (isNaN_of_value h hb) (isInf_of_value h ha)
    (isInf_of_value h hb) (isZero_of_value ha ha0) (isZero_of_value hb hb0), divFinite_eq h hna hnb, hval,
    roundToFormat_signed f _ (div_pos hna.codeMag_pos hnb.codeMag_pos)]

/-- Settles O43: quotient and remainder are exact, and are rounded once. -/
theorem fdivIsTheExactRoundingOfTheQuotient : Obligations.FdivIsTheExactRoundingOfTheQuotient := by
  intro s rm va vb h ha hb ha0 hb0
  rw [exec_fdiv, drive_of_supported _ h, fpDivider_of_values h ha hb ha0 hb0]

end Sys2Proof.Proofs

namespace Sys2Proof.Proofs

open Sys2Proof Sys2Proof.Machine

/-! ### The adder: the exact sum -/

/-- `1` for operands of one sign, `-1` for operands of two: the factor of `b`'s magnitude in the sum, relative to the sign of `a`. -/
def addFactor (same : Bool) : ℚ := if same then 1 else -1

/-- The magnitude of the exact sum, when `a` is not the smaller operand: a sum or a difference of magnitudes (R146). -/
def sumMag (f : Fmt) (a b : BitVec f.W) : ℚ :=
  codeMag f (mag f a) + addFactor (signOf f a == signOf f b) * codeMag f (mag f b)

theorem signed_sum (s t : Bool) (ma mb : ℚ) :
    signFactor s * ma + signFactor t * mb = signFactor s * (ma + addFactor (s == t) * mb) := by
  cases s <;> cases t <;> simp [signFactor, addFactor] <;> ring

/-- R144, R146: in magnitude order the exponents' distance is not negative, and at distance 0 neither is the difference of the significands. -/
theorem exists_distance {f : Fmt} {a b : BitVec f.W} {ea eb : Int} {sa sb : Nat} (ha : NormalForm f a ea sa)
    (hb : NormalForm f b eb sb) (hle : mag f b ≤ mag f a) : ∃ d : Nat, ea = eb + d ∧ (d = 0 → sb ≤ sa) := by
  have hmag := (codeMag_strictMono f).monotone hle
  rw [ha.codeMag_eq, hb.codeMag_eq] at hmag
  have hge : eb ≤ ea := by
    by_contra hlt
    refine absurd hmag (not_le.mpr ?_)
    have hsa : (sa : ℚ) < 2 ^ (f.mbits + 1) := by exact_mod_cast ha.sig_lt
    have hsb : (2 : ℚ) ^ f.mbits ≤ sb := by exact_mod_cast hb.le_sig
    calc
      sa * (2 : ℚ) ^ (ea - f.bias - f.mbits) < 2 ^ (f.mbits + 1) * (2 : ℚ) ^ (ea - f.bias - f.mbits) :=
        mul_lt_mul_of_pos_right hsa (zpow_pos two_pos _)
      _ = 2 ^ f.mbits * (2 : ℚ) ^ (ea + 1 - f.bias - f.mbits) := by
        rw [pow_succ, mul_assoc, ← zpow_one_add₀ two_ne_zero]
        congr 2
        ring
      _ ≤ 2 ^ f.mbits * (2 : ℚ) ^ (eb - f.bias - f.mbits) := by
        gcongr
        · exact one_le_two
        · omega
      _ ≤ sb * (2 : ℚ) ^ (eb - f.bias - f.mbits) := mul_le_mul_of_nonneg_right hsb (zpow_pos two_pos _).le
  obtain ⟨d, hd⟩ := Int.le.dest hge
  refine ⟨d, hd.symm, fun h0 => ?_⟩
  rw [← hd, h0, Nat.cast_zero, add_zero] at hmag
  exact_mod_cast le_of_mul_le_mul_right hmag (zpow_pos two_pos _)

/-- The exact sum in units of `a`'s last place. -/
theorem sumMag_eq {f : Fmt} {a b : BitVec f.W} {eb : Int} {sa sb d : Nat} (ha : NormalForm f a (eb + d) sa)
    (hb : NormalForm f b eb sb) :
    sumMag f a b = (sa + addFactor (signOf f a == signOf f b) * (sb / 2 ^ d)) * (2 : ℚ) ^ (eb + d - f.bias - f.mbits) := by
  have hexp : eb + d - f.bias - f.mbits = (eb - f.bias - f.mbits) + (d : Int) := by ring
  rw [sumMag, ha.codeMag_eq, hb.codeMag_eq, hexp, zpow_add₀ two_ne_zero, zpow_natCast]
  field_simp

/-! ### The far path -/

/-- R147: the parts stand for the exact sum, with the round bit for half a unit and a rest strictly between 0 and half a unit. -/
theorem exists_farParts {f : Fmt} {sa sb d : Nat} (ea : Int) (same : Bool) (ha : 2 ^ f.mbits ≤ sa)
    (ha' : sa < 2 ^ (f.mbits + 1)) (hb : 0 < sb) (hb' : sb < 2 ^ (f.mbits + 1)) (hd : f.mbits + 3 ≤ d) :
    ∃ sig e rb r, farParts f same sa ea = (sig, e, rb) ∧ 2 ^ f.mbits ≤ sig ∧ sig < 2 ^ (f.mbits + 1) ∧ ea - 1 ≤ e ∧
      0 < r ∧ r < 1 / 2 ∧
      (sig + ((b2n rb : ℚ) / 2 + r)) * (2 : ℚ) ^ e = (sa + addFactor same * (sb / 2 ^ d)) * (2 : ℚ) ^ ea := by
  have hpos : 0 < (sb : ℚ) / 2 ^ d := div_pos (by exact_mod_cast hb) (by positivity)
  have hlt : (sb : ℚ) / 2 ^ d < 1 / 4 := by
    have hpow : (2 : ℚ) ^ (f.mbits + 3) ≤ 2 ^ d := pow_le_pow_right₀ one_le_two hd
    have hsb : (sb : ℚ) < 2 ^ (f.mbits + 1) := by exact_mod_cast hb'
    rw [div_lt_iff₀ (by positivity)]
    rw [pow_succ] at hsb
    rw [pow_add] at hpow
    linarith
  unfold farParts
  cases same with
  | true =>
    refine ⟨sa, ea, false, sb / 2 ^ d, rfl, ha, ha', by omega, hpos, by linarith, ?_⟩
    simp [b2n, addFactor]
  | false =>
    rw [if_neg Bool.false_ne_true]
    obtain hgt | rfl := ha.lt_or_eq
    · refine ⟨sa - 1, ea, true, 1 / 2 - sb / 2 ^ d, if_pos hgt, by omega,
        by omega, by omega, by linarith, by linarith, ?_⟩
      rw [Nat.cast_sub (by omega)]
      simp only [b2n, addFactor, if_true, Bool.false_eq_true, if_false]
      push_cast
      ring
    · have hone : 1 ≤ 2 ^ (f.mbits + 1) := Nat.one_le_two_pow
      refine ⟨2 ^ (f.mbits + 1) - 1, ea - 1, true, 1 / 2 - 2 * (sb / 2 ^ d), if_neg (lt_irrefl _), ?_, by omega, le_rfl,
        by linarith, by linarith, ?_⟩
      · have := Nat.one_le_two_pow (n := f.mbits)
        rw [pow_succ]
        omega
      · rw [Nat.cast_sub hone, zpow_sub_one₀ two_ne_zero]
        simp only [b2n, addFactor, if_true, Bool.false_eq_true, if_false]
        push_cast
        ring

/-! ### The near path -/

/-- The near path's sum in units of the last place of the shifted `b`. -/
def alignedSum (same : Bool) (sa sb d : Nat) : Nat := if same then sa * 2 ^ d + sb else sa * 2 ^ d - sb

/-- R148: `b` is shifted right by no more than the guard bits, so no bit of it is lost. -/
theorem nearSum_eq_alignedSum {f : Fmt} {d c : Nat} (same : Bool) (sa sb : Nat) (hc : f.guard = d + c) :
    nearSum f same sa sb d = alignedSum same sa sb d * 2 ^ c := by
  have hwide : sb * 2 ^ f.guard / 2 ^ d = sb * 2 ^ c := by
    rw [hc, pow_add, mul_left_comm, Nat.mul_div_cancel_left _ (Nat.two_pow_pos d)]
  simp only [nearSum, alignedSum, hwide]
  rw [hc, pow_add, ← Nat.mul_assoc]
  split_ifs
  · rw [Nat.add_mul]
  · rw [Nat.sub_mul]

section

variable {k sa sb d : Nat} (ha : 2 ^ k ≤ sa) (hb : sb < 2 ^ (k + 1)) (h0 : d = 0 → sb ≤ sa)
include ha hb h0

/-- The difference is not negative, and after a cancellation is at least half a unit of `a`'s last place. -/
theorem aligned_difference : sb ≤ sa * 2 ^ d ∧ (sa * 2 ^ d - sb ≠ 0 → 2 ^ d ≤ 2 * (sa * 2 ^ d - sb)) := by
  cases d with
  | zero =>
    have := h0 rfl
    rw [pow_zero]
    omega
  | succ j =>
    have hj : 1 ≤ 2 ^ j := Nat.one_le_two_pow
    have hwide : 2 ^ (k + 1) * 2 ^ j ≤ sa * 2 ^ (j + 1) := by
      rw [pow_succ', pow_succ', ← Nat.mul_assoc, Nat.mul_comm 2]
      gcongr
    have hroom : 2 ^ (k + 1) + 2 ^ j ≤ 2 ^ (k + 1) * 2 ^ j + 1 := by
      obtain ⟨m, hm⟩ := Nat.exists_eq_add_of_le hj
      obtain ⟨n, hn⟩ := Nat.exists_eq_add_of_le (Nat.one_le_two_pow (n := k + 1))
      rw [hm, hn]
      nlinarith [Nat.zero_le (n * m)]
    rw [pow_succ' 2 j] at hwide ⊢
    omega

theorem alignedSum_cast (same : Bool) : (alignedSum same sa sb d : ℚ) = (sa + addFactor same * (sb / 2 ^ d)) * 2 ^ d := by
  have hle := (aligned_difference ha hb h0).1
  cases same with
  | true =>
    simp only [alignedSum, addFactor, if_true]
    push_cast
    field_simp
  | false =>
    simp only [alignedSum, addFactor, Bool.false_eq_true, if_false]
    rw [Nat.cast_sub hle]
    push_cast
    field_simp
    ring

theorem le_two_mul_alignedSum (same : Bool) (hne : alignedSum same sa sb d ≠ 0) :
    2 ^ d ≤ 2 * alignedSum same sa sb d := by
  cases same with
  | true =>
    have hsa : 0 < sa := (Nat.two_pow_pos k).trans_le ha
    have := Nat.le_mul_of_pos_left (2 ^ d) hsa
    simp only [alignedSum, if_true]
    omega
  | false => exact (aligned_difference ha hb h0).2 hne

omit ha h0 in
theorem alignedSum_lt (same : Bool) (ha' : sa < 2 ^ (k + 1)) : alignedSum same sa sb d < 2 ^ (k + 2 + d) := by
  have hone : 1 ≤ 2 ^ d := Nat.one_le_two_pow
  have hwide : sa * 2 ^ d + 2 ^ d ≤ 2 ^ (k + 1) * 2 ^ d := by
    rw [← Nat.succ_mul]
    exact Nat.mul_le_mul_right _ ha'
  have hsb : sb ≤ 2 ^ (k + 1) * 2 ^ d := hb.le.trans (Nat.le_mul_of_pos_right _ hone)
  have hle : alignedSum same sa sb d ≤ sa * 2 ^ d + sb := by
    unfold alignedSum
    split_ifs <;> omega
  have hexp : 2 ^ (k + 2 + d) = 2 ^ (k + 1) * 2 ^ d + 2 ^ (k + 1) * 2 ^ d := by ring
  omega

end

/-- R148 for the near path's sum: it is exact, fits its width, and what is left after a cancellation is at least half a unit of `a`'s last place. -/
theorem nearSum_spec {f : Fmt} {sa sb d : Nat} (same : Bool) (ha : 2 ^ f.mbits ≤ sa) (ha' : sa < 2 ^ (f.mbits + 1))
    (hb' : sb < 2 ^ (f.mbits + 1)) (hd : d ≤ f.mbits + 2) (h0 : d = 0 → sb ≤ sa) :
    (nearSum f same sa sb d : ℚ) = (sa + addFactor same * (sb / 2 ^ d)) * 2 ^ f.guard ∧
    nearSum f same sa sb d < 2 ^ (f.mbits + f.guard + 2) ∧
    (nearSum f same sa sb d ≠ 0 → 2 ^ f.guard ≤ 2 * nearSum f same sa sb d) := by
  obtain ⟨c, hc⟩ : ∃ c, f.guard = d + c := Nat.exists_eq_add_of_le (by unfold Fmt.guard; omega)
  have hpos := Nat.two_pow_pos c
  rw [nearSum_eq_alignedSum same sa sb hc, hc]
  refine ⟨?_, ?_, fun hne => ?_⟩
  · rw [Nat.cast_mul, alignedSum_cast ha hb' h0, pow_add, mul_assoc]
    push_cast
    rfl
  · have hexp : f.mbits + (d + c) + 2 = f.mbits + 2 + d + c := by ring
    rw [hexp, pow_add _ _ c]
    exact Nat.mul_lt_mul_of_pos_right (alignedSum_lt hb' same ha') hpos
  · rw [pow_add, ← Nat.mul_assoc]
    exact Nat.mul_le_mul_right _ (le_two_mul_alignedSum ha hb' h0 same (Nat.ne_zero_of_mul_ne_zero_left hne))

end Sys2Proof.Proofs

namespace Sys2Proof.Proofs

open Sys2Proof Sys2Proof.Machine

/-! ### The adder: normalize, round, resolve -/

/-- R150: the left shifts bring the leading bit of a sum to the implicit bit's position and keep its value. -/
theorem exists_leftShifts_eq {f : Fmt} {t : Nat} (e : Int) (hlo : 2 ^ f.guard ≤ 2 * t)
    (hhi : t < 2 ^ (f.mbits + f.guard + 1)) :
    ∃ k : Nat, leftShifts f (f.mbits + 1) t e = (t * 2 ^ k, e - k) ∧ 2 ^ (f.mbits + f.guard) ≤ t * 2 ^ k ∧
      t * 2 ^ k < 2 ^ (f.mbits + f.guard + 1) := by
  obtain ⟨k, -, heq, hstop, hbefore⟩ := leftShifts_spec f (f.mbits + 1) t e
  refine ⟨k, heq, hstop.elim id ?_, ?_⟩
  · rintro rfl
    calc
      2 ^ (f.mbits + f.guard) = 2 ^ f.mbits * 2 ^ f.guard := pow_add ..
      _ ≤ 2 ^ f.mbits * (2 * t) := Nat.mul_le_mul_left _ hlo
      _ = t * 2 ^ (f.mbits + 1) := by ring
  · cases k with
    | zero => simpa using hhi
    | succ j =>
      have hj := hbefore j j.lt_succ_self
      rw [pow_succ, pow_succ, ← Nat.mul_assoc]
      exact Nat.mul_lt_mul_of_pos_right hj two_pos

/-- A whole number of `minUnit` is a whole number of units in the last place of any exponent that is not normal. -/
theorem exists_natCast_of_units {f : Fmt} {e : Int} (he : e ≤ 0) {y : ℚ} {c : Nat}
    (hy : y * (2 : ℚ) ^ (e - f.bias - f.mbits) = c * minUnit f) : ∃ j : Nat, y = j := by
  obtain ⟨k, hk⟩ := Int.eq_ofNat_of_zero_le (sub_nonneg.mpr (he.trans zero_le_one))
  have hunit : minUnit f = 2 ^ k * (2 : ℚ) ^ (e - f.bias - f.mbits) := by
    rw [minUnit, ← zpow_natCast, ← zpow_add₀ two_ne_zero]
    congr 1
    omega
  rw [hunit, ← mul_assoc] at hy
  exact ⟨c * 2 ^ k, by exact_mod_cast mul_right_cancel₀ (zpow_ne_zero _ two_ne_zero) hy⟩

/-- R150, R151: the near path's sum, shifted right once or left as often as needed, is rounded exactly. -/
theorem finishSum_eq {f : Fmt} (h : f.supported = true) (s : Bool) {e : Int} {t c : Nat} (rm : RoundingMode)
    (hlo : 2 ^ f.guard ≤ 2 * t) (hhi : t < 2 ^ (f.mbits + f.guard + 2))
    (hc : (t : ℚ) / 2 ^ f.guard * (2 : ℚ) ^ (e - f.bias - f.mbits) = c * minUnit f) :
    finishSum f s e t rm = roundToFormat f s (t / 2 ^ f.guard * (2 : ℚ) ^ (e - f.bias - f.mbits)) rm := by
  obtain ⟨i, hi⟩ : ∃ i, f.guard = i + 1 := ⟨f.mbits + 2, rfl⟩
  rw [hi] at hlo hhi hc ⊢
  by_cases hcarry : 2 ^ (f.mbits + (i + 1) + 1) ≤ t
  · have hval : ((t / 2 : ℕ) + ((t % 2 : ℕ) : ℚ) / 2) / 2 ^ (i + 1) * (2 : ℚ) ^ (e + 1 - f.bias - f.mbits) =
        t / 2 ^ (i + 1) * (2 : ℚ) ^ (e - f.bias - f.mbits) := by
      have hhalf : ((t / 2 : ℕ) : ℚ) + ((t % 2 : ℕ) : ℚ) / 2 = t / 2 := by
        exact_mod_cast quotient_add_remainder t two_pos
      have hexp : e + 1 - f.bias - f.mbits = 1 + (e - f.bias - f.mbits) := by ring
      rw [hhalf, hexp, zpow_one_add₀ two_ne_zero]
      field_simp
    have hlt : ((t % 2 : ℕ) : ℚ) / 2 < 1 := by
      rw [div_lt_one two_pos]
      exact_mod_cast Nat.mod_lt t two_pos
    have hbit : bit t 0 = true ↔ ((t % 2 : ℕ) : ℚ) / 2 ≠ 0 := by
      rw [bit_zero_eq_decide, decide_eq_true_iff, ne_eq, div_eq_zero_iff, or_iff_left two_ne_zero, Nat.cast_eq_zero]
      omega
    rw [← hval] at hc ⊢
    simp only [finishSum, hi, hcarry, decide_true, Bool.true_and, if_true, Nat.add_sub_cancel]
    refine roundThenResolve_eq h s rm ?_ ?_ (by positivity) hlt hbit fun he => exists_natCast_of_units he hc
    · rw [Nat.le_div_iff_mul_le two_pos, ← pow_succ]
      exact hcarry
    · rw [Nat.div_lt_iff_lt_mul two_pos, ← pow_succ]
      exact hhi
  · obtain ⟨k, heq, hklo, hkhi⟩ := exists_leftShifts_eq e (hi ▸ hlo) (hi ▸ not_le.mp hcarry)
    have hval : ((t * 2 ^ k : ℕ) + (0 : ℚ)) / 2 ^ (i + 1) * (2 : ℚ) ^ (e - k - f.bias - f.mbits) =
        t / 2 ^ (i + 1) * (2 : ℚ) ^ (e - f.bias - f.mbits) := by
      have hexp : e - f.bias - f.mbits = k + (e - k - f.bias - f.mbits) := by ring
      rw [hexp, zpow_add₀ two_ne_zero, zpow_natCast]
      push_cast
      ring
    rw [hi] at hklo hkhi
    rw [← hval] at hc ⊢
    simp only [finishSum, hi, hcarry, decide_false, Bool.false_and, if_false, Nat.add_sub_cancel, heq]
    exact roundThenResolve_eq h s rm hklo hkhi le_rfl zero_lt_one (by simp) fun he => exists_natCast_of_units he hc

section

variable {f : Fmt} (h : f.supported = true) {a b : BitVec f.W} (hle : mag f b ≤ mag f a)
include hle

/-- A sum or difference of finite magnitudes is a whole number of `minUnit`. -/
theorem exists_units_of_sum : ∃ c : Nat, sumMag f a b = c * minUnit f := by
  have hunits := (codeUnits_strictMono f).monotone hle
  unfold sumMag
  cases signOf f a == signOf f b with
  | true =>
    refine ⟨codeUnits f (mag f a) + codeUnits f (mag f b), ?_⟩
    simp only [codeMag, addFactor, if_true]
    push_cast
    ring
  | false =>
    refine ⟨codeUnits f (mag f a) - codeUnits f (mag f b), ?_⟩
    simp only [codeMag, addFactor, Bool.false_eq_true, if_false]
    rw [Nat.cast_sub hunits]
    ring

include h

omit hle in
/-- R147, R151: the far path rounds the exact sum, which is not zero. -/
theorem farPath_eq {eb : Int} {sa sb d : Nat} (ha : NormalForm f a (eb + d) sa) (hb : NormalForm f b eb sb)
    (hfar : f.mbits + 3 ≤ d) (rm : RoundingMode) :
    let p := farParts f (signOf f a == signOf f b) sa (eb + d)
    sumMag f a b ≠ 0 ∧ roundThenResolve f (signOf f a) p.2.1 p.1 p.2.2 true rm =
      roundToFormat f (signOf f a) (sumMag f a b) rm := by
  have hen := hb.le_en
  obtain ⟨sig, e, rb, r, hparts, hlo, hhi, he, hr0, hr1, hval⟩ := exists_farParts (eb + d) (signOf f a == signOf f b)
    ha.le_sig ha.sig_lt ((Nat.two_pow_pos _).trans_le hb.le_sig) hb.sig_lt hfar
  obtain ⟨p, rfl⟩ : ∃ p : Nat, e = p + 1 := ⟨(e - 1).toNat, by omega⟩
  have hm : sumMag f a b = (sig + ((b2n rb : ℚ) / 2 + r)) * (2 ^ p * minUnit f) := by
    rw [sumMag_eq ha hb, two_pow_mul_minUnit]
    simp only [zpow_sub₀ (two_ne_zero' ℚ), ← mul_div_assoc, hval]
  have hu := ulp_pos f p
  rw [hparts, hm]
  exact ⟨by positivity, roundThenResolve_of_parts h _ rm p hlo hhi rb true hr0.le hr1 (by simp [hr0.ne'])⟩

/-- R148 to R151: the near path rounds the exact sum, and finds a vanished one. -/
theorem nearPath_eq {eb : Int} {sa sb d : Nat} (ha : NormalForm f a (eb + d) sa) (hb : NormalForm f b eb sb)
    (hnear : d ≤ f.mbits + 2) (h0 : d = 0 → sb ≤ sa) (rm : RoundingMode) :
    let t := nearSum f (signOf f a == signOf f b) sa sb d
    (sumMag f a b = 0 ↔ t = 0) ∧ (t ≠ 0 → finishSum f (signOf f a) (eb + d) t rm =
      roundToFormat f (signOf f a) (sumMag f a b) rm) := by
  intro t
  obtain ⟨hsum, hlt, hcancel⟩ := nearSum_spec (signOf f a == signOf f b) ha.le_sig ha.sig_lt hb.sig_lt hnear h0
  obtain ⟨c, hc⟩ := exists_units_of_sum hle
  have hm : sumMag f a b = t / 2 ^ f.guard * (2 : ℚ) ^ (eb + d - f.bias - f.mbits) := by
    rw [sumMag_eq ha hb, hsum, mul_div_cancel_right₀ _ (by positivity)]
  refine ⟨?_, fun hne => ?_⟩
  · rw [hm, mul_eq_zero, or_iff_left (zpow_ne_zero _ two_ne_zero), div_eq_zero_iff, or_iff_left (by positivity),
      Nat.cast_eq_zero]
  · rw [finishSum_eq h _ rm (hcancel hne) hlt (hm.symm.trans hc), hm]

/-- R146 to R151: either path rounds the exact sum once, and a vanished sum is R149's zero. -/
theorem addFinite_eq {ea eb : Int} {sa sb : Nat} (ha : NormalForm f a ea sa) (hb : NormalForm f b eb sb)
    (rm : RoundingMode) : addFinite f a b rm =
      if sumMag f a b = 0 then zero f (rm == .rd) else roundToFormat f (signOf f a) (sumMag f a b) rm := by
  obtain ⟨d, rfl, h0⟩ := exists_distance ha hb hle
  simp only [addFinite, ha.normalize, hb.normalize, add_sub_cancel_left, Int.toNat_natCast]
  by_cases hfar : (f.mbits : Int) + 2 < d
  · obtain ⟨hne, hround⟩ := farPath_eq h ha hb (by omega) rm
    rw [if_pos hfar, if_neg hne, hround]
  · obtain ⟨hzero, hround⟩ := nearPath_eq h hle ha hb (by omega) h0 rm
    rw [if_neg hfar]
    simp only [hzero]
    split_ifs with hne
    · rfl
    · exact hround hne

end

/-- R146 to R151 on values: the sum has the sign of the larger operand (R156). -/
theorem addOrdered_of_values {f : Fmt} (h : f.supported = true) {a b : BitVec f.W} {va vb : ℚ}
    (ha : value? f a = some va) (hb : value? f b = some vb) (ha0 : va ≠ 0) (hb0 : vb ≠ 0) (hle : mag f b ≤ mag f a)
    (rm : RoundingMode) :
    addOrdered f a b rm =
      if va + vb = 0 then zero f (rm == .rd) else roundToFormat f (decide (va + vb < 0)) |va + vb| rm := by
  obtain ⟨ea, sa, hna⟩ := exists_normalForm_of_value h ha ha0
  obtain ⟨eb, sb, hnb⟩ := exists_normalForm_of_value h hb hb0
  have hval : va + vb = signFactor (signOf f a) * sumMag f a b := by
    rw [((value?_eq_some_iff h).mp ha).2, ((value?_eq_some_iff h).mp hb).2, signed_sum, sumMag]
  have hsign : signFactor (signOf f a) ≠ 0 := by cases signOf f a <;> simp [signFactor]
  obtain ⟨c, hc⟩ := exists_units_of_sum hle
  have hnonneg : 0 ≤ sumMag f a b := by
    have := minUnit_pos f
    rw [hc]
    positivity
  rw [addOrdered, isZero_of_value hb hb0, if_neg Bool.false_ne_true]
  simp only [addFinite_eq h hle hna hnb, hval, mul_eq_zero, or_iff_right hsign]
  split_ifs with hz
  · rfl
  · rw [roundToFormat_signed f _ (lt_of_le_of_ne hnonneg (Ne.symm hz))]

/-- R140, R144: with finite nonzero operands the adder rounds their exact sum once, whichever is the larger. -/
theorem fpAdder_of_values {f : Fmt} (h : f.supported = true) {a b : BitVec f.W} {va vb : ℚ}
    (ha : value? f a = some va) (hb : value? f b = some vb) (ha0 : va ≠ 0) (hb0 : vb ≠ 0) (rm : RoundingMode) :
    fpAdder f a b rm =
      if va + vb = 0 then zero f (rm == .rd) else roundToFormat f (decide (va + vb < 0)) |va + vb| rm := by
  rw [fpAdder_of_not_special rm (isNaN_of_value h ha) (isNaN_of_value h hb) (isInf_of_value h ha) (isInf_of_value h hb)]
  obtain hlt | hle := lt_or_ge (mag f a) (mag f b)
  · rw [if_pos hlt, addOrdered_of_values h hb ha hb0 ha0 hlt.le, add_comm vb va]
  · rw [if_neg (not_lt.mpr hle), addOrdered_of_values h ha hb ha0 hb0 hle]

/-- Settles O28: the adder's sum is exact until it is rounded, once. -/
theorem faddIsTheExactRoundingOfTheSum : Obligations.FaddIsTheExactRoundingOfTheSum := by
  intro s rm va vb h ha hb ha0 hb0 hne
  rw [exec_fadd, drive_of_supported _ h, fpAdder_of_values h ha hb ha0 hb0, if_neg hne]

/-- Settles O29: FSUB adds the operand whose value is negated. -/
theorem fsubIsTheExactRoundingOfTheDifference : Obligations.FsubIsTheExactRoundingOfTheDifference := by
  intro s rm va vb h ha hb ha0 hb0
  have hneg : value? s.fmt (neg s.fmt s.b) = some (-vb) := by rw [value?_neg, hb, Option.map_some]
  rw [exec_fsub, drive_of_supported _ h, fpSub, fpAdder_of_values h ha hneg ha0 (neg_ne_zero.mpr hb0)]
  simp only [← sub_eq_add_neg]

/-! ### Representable results -/

/-- R122's first point, with the sign taken from the value. -/
theorem roundToFormat_value {f : Fmt} (h : f.supported = true) {x : BitVec f.W} {w : ℚ} (hx : value? f x = some w)
    (h0 : w ≠ 0) (rm : RoundingMode) : roundToFormat f (decide (w < 0)) |w| rm = x := by
  have habs := abs_pos.mpr h0
  have hround := roundToFormat_signed f (signOf f x) habs rm
  rwa [← value_eq_signFactor_mul_abs hx, roundToFormat_abs_value h hx h0] at hround

/-- Settles O47: each command is the exact rounding of its exact result, and that fixes a representable one. -/
theorem representableResultsAreExactInEveryMode : Obligations.RepresentableResultsAreExactInEveryMode := by
  intro s va vb w x h ha hb ha0 hb0 hx hw
  refine ⟨?_, ?_, ?_, ?_⟩ <;> rintro rfl rm
  · rw [faddIsTheExactRoundingOfTheSum s rm va vb h ha hb ha0 hb0 hw, roundToFormat_value h hx hw]
  · rw [fsubIsTheExactRoundingOfTheDifference s rm va vb h ha hb ha0 hb0, if_neg hw, roundToFormat_value h hx hw]
  · rw [fmulIsTheExactRoundingOfTheProduct s rm va vb h ha hb ha0 hb0, roundToFormat_value h hx hw]
  · rw [fdivIsTheExactRoundingOfTheQuotient s rm va vb h ha hb ha0 hb0, roundToFormat_value h hx hw]

end Sys2Proof.Proofs

namespace Sys2Proof.Proofs

open Sys2Proof Sys2Proof.Machine

/-! ### Commands by their component's result -/

section

variable {s : State} (h : s.fmt.supported = true) {rm : RoundingMode} {y : BitVec s.fmt.W}
include h

theorem exec_fadd_eq (hy : fpAdder s.fmt s.a s.b rm = y) : exec (.fadd rm) s = .next (s.driven y) := by
  rw [exec_fadd, hy, drive_of_supported y h]

theorem exec_fsub_eq (hy : fpSub s.fmt s.a s.b rm = y) : exec (.fsub rm) s = .next (s.driven y) := by
  rw [exec_fsub, hy, drive_of_supported y h]

theorem exec_fmul_eq (hy : fpMultiplier s.fmt s.a s.b rm = y) : exec (.fmul rm) s = .next (s.driven y) := by
  rw [exec_fmul, hy, drive_of_supported y h]

theorem exec_fdiv_eq (hy : fpDivider s.fmt s.a s.b rm = y) : exec (.fdiv rm) s = .next (s.driven y) := by
  rw [exec_fdiv, hy, drive_of_supported y h]

end

/-! ### The classes exclude each other (R84) -/

theorem isInf_of_isNaN {f : Fmt} {x : BitVec f.W} (hx : isNaN f x = true) : isInf f x = false := by
  obtain ⟨-, hm⟩ : expOf f x = f.emaxc ∧ manOf f x ≠ 0 := by simpa [isNaN] using hx
  simp [isInf, hm]

theorem isNaN_of_isInf {f : Fmt} {x : BitVec f.W} (hx : isInf f x = true) : isNaN f x = false := by
  obtain ⟨-, hm⟩ := (isInf_iff f x).mp hx
  simp [isNaN, hm]

theorem isZero_of_isNaN {f : Fmt} (h : f.supported = true) {x : BitVec f.W} (hx : isNaN f x = true) :
    isZero f x = false := by
  obtain ⟨he, -⟩ : expOf f x = f.emaxc ∧ manOf f x ≠ 0 := by simpa [isNaN] using hx
  simp [isZero, he, (Nat.zero_lt_of_lt (one_lt_emaxc h)).ne']

theorem isZero_iff_mag (f : Fmt) (x : BitVec f.W) : isZero f x = true ↔ mag f x = 0 := by
  simp [isZero, mag_eq]

theorem value?_of_isZero {f : Fmt} {x : BitVec f.W} (hx : isZero f x = true) : value? f x = some 0 := if_pos hx

theorem value_ne_zero {f : Fmt} {x : BitVec f.W} {v : ℚ} (hv : value? f x = some v) (hx : isZero f x = false) :
    v ≠ 0 := by
  rw [← abs_ne_zero, abs_value hv, codeMag_ne_zero_iff, ne_eq, ← isZero_iff_mag, hx]
  exact Bool.false_ne_true

@[simp] theorem isZero_zero (f : Fmt) (s : Bool) : isZero f (zero f s) = true := by
  simp [isZero, zero]

@[simp] theorem signOf_zero (f : Fmt) (s : Bool) : signOf f (zero f s) = s := signOf_pack ..

/-- R83, R90: a finite encoding has a value. -/
theorem exists_value_of_isFinite {f : Fmt} {x : BitVec f.W} (hx : isFinite f x = true) :
    ∃ v, value? f x = some v := by
  have he : expOf f x ≠ f.emaxc := by simpa [isFinite] using hx
  refine exists_value_of_mag_lt ?_
  rw [← exp_lt_emaxc_iff, mag_div]
  exact (expOf_le_emaxc f x).lt_of_ne he

/-- R84: what is no NaN is an infinity or has a value. -/
theorem isInf_or_exists_value {f : Fmt} {x : BitVec f.W} (hx : isNaN f x = false) :
    isInf f x = true ∨ ∃ v, value? f x = some v := by
  by_cases he : expOf f x = f.emaxc
  · exact .inl (by simpa [isNaN, isInf, he] using hx)
  · exact .inr (exists_value_of_isFinite (by simpa [isFinite] using he))

/-! ### A NaN operand (R141, R171, R192) -/

section

variable {f : Fmt} {a b : BitVec f.W} (rm : RoundingMode)

theorem fpAdder_of_nan_left (ha : isNaN f a = true) : fpAdder f a b rm = quiet f a := if_pos ha

theorem fpAdder_of_nan_right (ha : isNaN f a = false) (hb : isNaN f b = true) : fpAdder f a b rm = quiet f b := by
  simp [fpAdder, ha, hb]

theorem fpMultiplier_of_nan_left (ha : isNaN f a = true) : fpMultiplier f a b rm = quiet f a := if_pos ha

theorem fpMultiplier_of_nan_right (ha : isNaN f a = false) (hb : isNaN f b = true) :
    fpMultiplier f a b rm = quiet f b := by
  simp [fpMultiplier, ha, hb]

/-- R191 comes before R192, but asks for two zeros or two infinities. -/
theorem fpDivider_of_nan_left (h : f.supported = true) (ha : isNaN f a = true) : fpDivider f a b rm = quiet f a := by
  simp [fpDivider, ha, isZero_of_isNaN h ha, isInf_of_isNaN ha]

theorem fpDivider_of_nan_right (h : f.supported = true) (ha : isNaN f a = false) (hb : isNaN f b = true) :
    fpDivider f a b rm = quiet f b := by
  simp [fpDivider, ha, hb, isZero_of_isNaN h hb, isInf_of_isNaN hb]

end

/-- Settles O24: each component's dispatch answers a NaN operand, the first one first, before it looks at anything else a NaN could meet. -/
theorem nanOperandIsReturnedQuieted : Obligations.NanOperandIsReturnedQuieted := by
  refine fun s rm h => ⟨fun ha => ⟨?_, ?_, ?_⟩, fun ha hb => ⟨?_, ?_, ?_⟩⟩
  · exact exec_fadd_eq h (fpAdder_of_nan_left rm ha)
  · exact exec_fmul_eq h (fpMultiplier_of_nan_left rm ha)
  · exact exec_fdiv_eq h (fpDivider_of_nan_left rm h ha)
  · exact exec_fadd_eq h (fpAdder_of_nan_right rm ha hb)
  · exact exec_fmul_eq h (fpMultiplier_of_nan_right rm ha hb)
  · exact exec_fdiv_eq h (fpDivider_of_nan_right rm h ha hb)

/-! ### FADD of infinities and of zeros (R142 to R145) -/

section

variable {f : Fmt} {a b : BitVec f.W} (rm : RoundingMode)

theorem fpAdder_of_infs (ia : isInf f a = true) (ib : isInf f b = true) :
    fpAdder f a b rm = if signOf f a = signOf f b then a else cnan f := by
  simp [fpAdder, ia, ib, isNaN_of_isInf ia, isNaN_of_isInf ib]

variable (h : f.supported = true) {va vb : ℚ}
include h

theorem fpAdder_of_inf_left (ia : isInf f a = true) (hb : value? f b = some vb) : fpAdder f a b rm = a := by
  simp [fpAdder, ia, isNaN_of_isInf ia, isNaN_of_value h hb, isInf_of_value h hb]

theorem fpAdder_of_inf_right (ha : value? f a = some va) (ib : isInf f b = true) : fpAdder f a b rm = b := by
  simp [fpAdder, ib, isNaN_of_isInf ib, isNaN_of_value h ha, isInf_of_value h ha]

/-- R145 after R144's reorder: a zero is never the larger operand, so a zero `b` stays in its place. -/
theorem fpAdder_of_value_zero (ha : value? f a = some va) (zb : isZero f b = true) :
    fpAdder f a b rm = addZero f a b rm := by
  have hb := value?_of_isZero zb
  have hlt : ¬ mag f a < mag f b := by simp [(isZero_iff_mag f b).mp zb]
  rw [fpAdder_of_not_special rm (isNaN_of_value h ha) (isNaN_of_value h hb) (isInf_of_value h ha) (isInf_of_value h hb),
    if_neg hlt, addOrdered, if_pos zb]

omit h in
theorem addZero_of_nonzero (za : isZero f a = false) : addZero f a b rm = a := by
  simp [addZero, za]

theorem fpAdder_of_zero_right (ha : value? f a = some va) (za : isZero f a = false) (zb : isZero f b = true) :
    fpAdder f a b rm = a := by
  rw [fpAdder_of_value_zero rm h ha zb, addZero_of_nonzero rm za]

theorem fpAdder_of_zero_left (za : isZero f a = true) (hb : value? f b = some vb) (zb : isZero f b = false) :
    fpAdder f a b rm = b := by
  have ha := value?_of_isZero za
  have hb0 : mag f b ≠ 0 := mag_ne_zero_of_value hb (value_ne_zero hb zb)
  have hlt : mag f a < mag f b := by simpa [(isZero_iff_mag f a).mp za] using Nat.pos_of_ne_zero hb0
  rw [fpAdder_of_not_special rm (isNaN_of_value h ha) (isNaN_of_value h hb) (isInf_of_value h ha) (isInf_of_value h hb),
    if_pos hlt, addOrdered, if_pos za, addZero_of_nonzero rm zb]

/-- R145's table for two zeros. -/
theorem fpAdder_of_zeros (za : isZero f a = true) (zb : isZero f b = true) :
    fpAdder f a b rm = zero f (if signOf f a = signOf f b then signOf f a else rm == .rd) := by
  have ha := eq_zero_of_isZero za
  have hb := eq_zero_of_isZero zb
  rw [fpAdder_of_value_zero rm h (value?_of_isZero za) zb, addZero]
  by_cases hs : signOf f a = signOf f b
  · simpa [hs] using ha
  · rw [if_neg hs]
    by_cases hrd : rm = .rd
    · simp [hrd, za, hs]
    · rw [beq_false_of_ne hrd]
      cases hsa : signOf f a with
      | false => simpa [hrd, hsa] using ha
      | true =>
        have hsb : signOf f b = false := by simpa [hsa] using hs
        simpa [hrd, za, hsb] using hb

end

/-- Settles O25: with no NaN on the ports the adder's dispatch looks for infinities first. -/
theorem faddOfInfinities : Obligations.FaddOfInfinities := by
  refine fun s rm h => ⟨fun ia ib hne => ?_, fun ia ib heq => ?_, fun ia hb => ?_, fun ha ib => ?_⟩
  · exact exec_fadd_eq h ((fpAdder_of_infs rm ia ib).trans (if_neg hne))
  · exact exec_fadd_eq h ((fpAdder_of_infs rm ia ib).trans (if_pos heq))
  · obtain ⟨vb, hb⟩ := exists_value_of_isFinite hb
    exact exec_fadd_eq h (fpAdder_of_inf_left rm h ia hb)
  · obtain ⟨va, ha⟩ := exists_value_of_isFinite ha
    exact exec_fadd_eq h (fpAdder_of_inf_right rm h ha ib)

/-- Settles O26: a zero is never the larger operand, so R145's step meets it on either port. -/
theorem faddWithAZeroOperand : Obligations.FaddWithAZeroOperand := by
  refine fun s rm h => ⟨fun ha za zb => ?_, fun za hb zb => ?_, fun za zb heq => ?_, fun za zb hne => ?_⟩
  · obtain ⟨va, ha⟩ := exists_value_of_isFinite ha
    exact exec_fadd_eq h (fpAdder_of_zero_right rm h ha za zb)
  · obtain ⟨vb, hb⟩ := exists_value_of_isFinite hb
    exact exec_fadd_eq h (fpAdder_of_zero_left rm h za hb zb)
  · exact exec_fadd_eq h (by rw [fpAdder_of_zeros rm h za zb, if_pos heq])
  · exact exec_fadd_eq h (by rw [fpAdder_of_zeros rm h za zb, if_neg hne])

/-! ### The sign of a sum (R149, R156) -/

theorem decide_signFactor_mul_neg (s : Bool) {m : ℚ} (hm : 0 < m) : decide (signFactor s * m < 0) = s := by
  cases s <;> simp [signFactor, hm, hm.le]

/-- R90: the sign bit of a nonzero value. -/
theorem signOf_eq_decide {f : Fmt} {x : BitVec f.W} {v : ℚ} (hv : value? f x = some v) (h0 : v ≠ 0) :
    signOf f x = decide (v < 0) := by
  have hs := decide_signFactor_mul_neg (signOf f x) (abs_pos.mpr h0)
  rw [← value_eq_signFactor_mul_abs hv] at hs
  exact hs.symm

/-- Settles O27: opposite values have opposite sign bits and one code, and the adder gives R149's zero for a zero sum. -/
theorem faddExactZeroSignFollowsTheMode : Obligations.FaddExactZeroSignFollowsTheMode := by
  intro s rm va vb h ha hb ha0 hsum
  obtain rfl : vb = -va := by linarith
  have hb0 : -va ≠ 0 := neg_ne_zero.mpr ha0
  refine ⟨?_, (codeMag_strictMono s.fmt).injective ?_, exec_fadd_eq h ?_⟩
  · rw [signOf_eq_decide ha ha0, signOf_eq_decide hb hb0, ne_eq, decide_eq_decide, neg_lt_zero]
    obtain hlt | hgt := ha0.lt_or_gt
    · simp [hlt, hlt.le]
    · simp [hgt, hgt.le]
  · rw [← abs_value ha, ← abs_value hb, abs_neg]
  · rw [fpAdder_of_values h ha hb ha0 hb0, if_pos hsum]

/-- A sum has the sign of its larger term. -/
theorem add_neg_iff_of_abs_le {v w : ℚ} (hle : |w| ≤ |v|) (hne : v + w ≠ 0) : v + w < 0 ↔ v < 0 := by
  obtain hv | hv := lt_or_ge v 0
  · rw [abs_of_neg hv] at hle
    have hw : v + w ≤ 0 := by linarith [le_abs_self w]
    exact iff_of_true (hw.lt_of_ne hne) hv
  · rw [abs_of_nonneg hv] at hle
    exact iff_of_false (by linarith [neg_abs_le w]) hv.not_gt

/-- Settles O35: the rounded sum has the sign of the exact one, which is that of its larger term. -/
theorem sumHasTheSignOfTheLargerOperand : Obligations.SumHasTheSignOfTheLargerOperand := by
  intro s rm va vb h ha hb ha0 hb0 hne
  obtain ⟨-, -, hround⟩ := exactRoundingMirrorsDirectedModesAndKeepsTheSign s.fmt _ h (abs_pos.mpr hne)
  obtain ⟨hsign, -⟩ := hround (decide (va + vb < 0)) rm
  refine ⟨_, faddIsTheExactRoundingOfTheSum s rm va vb h ha hb ha0 hb0 hne, fun hle => ?_, fun hlt => ?_⟩ <;>
    rw [hsign]
  · have habs : |vb| ≤ |va| := not_lt.mp ((mag_lt_mag_iff_abs_lt_abs hb ha).not.mp hle.not_gt)
    rw [signOf_eq_decide ha ha0, decide_eq_decide, add_neg_iff_of_abs_le habs hne]
  · have habs : |va| < |vb| := (mag_lt_mag_iff_abs_lt_abs hb ha).mp hlt
    rw [add_comm] at hne ⊢
    rw [signOf_eq_decide hb hb0, decide_eq_decide, add_neg_iff_of_abs_le habs.le hne]

/-! ### FSUB, and laws of FADD (R153, R155) -/

/-- Settles O30: FSUB's component is the adder on `a` and `neg(b)`, which are then the operands on the ports. -/
theorem fsubIsFaddOfTheNegatedOperand : Obligations.FsubIsFaddOfTheNegatedOperand := by
  refine fun s rm h => ⟨⟨_, exec_fsub_eq h rfl, ?_⟩, ?_⟩
  · exact exec_fadd_eq (s := s.present s.op s.rm s.a (neg s.fmt s.b)) h rfl
  · cases rm <;> rfl

section

variable {f : Fmt} (h : f.supported = true) {x : BitVec f.W} (rm : RoundingMode)
include h

/-- R155: a finite operand's difference with itself vanishes. -/
theorem fpSub_self_of_value {v : ℚ} (hv : value? f x = some v) : fpSub f x x rm = zero f (rm == .rd) := by
  have hneg : value? f (neg f x) = some (-v) := by rw [value?_neg, hv, Option.map_some]
  cases hz : isZero f x with
  | true => simp [fpSub, fpAdder_of_zeros rm h hz ((isZero_neg f x).trans hz)]
  | false =>
    have h0 := value_ne_zero hv hz
    rw [fpSub, fpAdder_of_values h hv hneg h0 (neg_ne_zero.mpr h0), if_pos (add_neg_cancel v)]

omit h in
theorem fpSub_self_of_inf (hx : isInf f x = true) : fpSub f x x rm = cnan f := by
  simp [fpSub, fpAdder_of_infs rm hx ((isInf_neg f x).trans hx)]

/-- R155: the positive zero is the identity, but for the negative zero. -/
theorem fpAdder_zero_false (hx : isNaN f x = false) (hne : x ≠ zero f true) : fpAdder f x (zero f false) rm = x := by
  have hb := isZero_zero f false
  obtain ix | ⟨v, hv⟩ := isInf_or_exists_value hx
  · exact fpAdder_of_inf_left rm h ix (value?_of_isZero hb)
  · cases hz : isZero f x with
    | true =>
      have hzero := eq_zero_of_isZero hz
      cases hs : signOf f x with
      | true => exact absurd (hs ▸ hzero) hne
      | false =>
        rw [hs] at hzero
        rw [fpAdder_of_zeros rm h hz hb, hs, signOf_zero, if_pos rfl, ← hzero]
    | false => exact fpAdder_of_zero_right rm h hv hz hb

end

/-- Settles O31: by the class of the operand. -/
theorem selfSubtraction : Obligations.SelfSubtraction := by
  intro s rm h hab
  have hsub {y} (hy : fpSub s.fmt s.a s.a rm = y) : exec (.fsub rm) s = .next (s.driven y) :=
    exec_fsub_eq h (by rw [← hab, hy])
  refine ⟨fun ha => ?_, fun ia => hsub (fpSub_self_of_inf rm ia), fun ha => hsub (fpAdder_of_nan_left rm ha)⟩
  obtain ⟨v, hv⟩ := exists_value_of_isFinite ha
  exact hsub (fpSub_self_of_value h rm hv)

/-- Settles O32: by the class of the operand; of the two zeros only the negative one is not returned. -/
theorem additiveIdentity : Obligations.AdditiveIdentity := by
  intro s rm h hb
  refine ⟨fun ha hne => exec_fadd_eq h ?_, fun ha => exec_fadd_eq h ?_, fun ha => ?_⟩
  · rw [hb, fpAdder_zero_false h rm ha hne]
  · rw [ha, hb, fpAdder_of_zeros rm h (isZero_zero ..) (isZero_zero ..)]
    simp
  · exact exec_fadd_eq h (fpAdder_of_nan_left rm ha)

/-! ### Exchanging the operands (R155, R179) -/

section

variable {f : Fmt} {a b : BitVec f.W} (rm : RoundingMode)

/-- Infinities of one sign are one encoding. -/
theorem eq_of_isInf (ia : isInf f a = true) (ib : isInf f b = true) (hs : signOf f a = signOf f b) : a = b := by
  rw [← encOf_signOf_mag f a, ← encOf_signOf_mag f b, hs, mag_eq_of_isInf ia ib]

theorem fpAdder_comm_of_infs (ia : isInf f a = true) (ib : isInf f b = true) : fpAdder f a b rm = fpAdder f b a rm := by
  rw [fpAdder_of_infs rm ia ib, fpAdder_of_infs rm ib ia]
  by_cases hs : signOf f a = signOf f b
  · rw [if_pos hs, if_pos hs.symm, eq_of_isInf ia ib hs]
  · rw [if_neg hs, if_neg (Ne.symm hs)]

theorem fpAdder_comm_of_values (h : f.supported = true) {va vb : ℚ} (ha : value? f a = some va)
    (hb : value? f b = some vb) : fpAdder f a b rm = fpAdder f b a rm := by
  cases za : isZero f a <;> cases zb : isZero f b
  · have ha0 := value_ne_zero ha za
    have hb0 := value_ne_zero hb zb
    rw [fpAdder_of_values h ha hb ha0 hb0, fpAdder_of_values h hb ha hb0 ha0, add_comm]
  · rw [fpAdder_of_zero_right rm h ha za zb, fpAdder_of_zero_left rm h zb ha za]
  · rw [fpAdder_of_zero_left rm h za hb zb, fpAdder_of_zero_right rm h hb zb za]
  · rw [fpAdder_of_zeros rm h za zb, fpAdder_of_zeros rm h zb za]
    by_cases hs : signOf f a = signOf f b
    · rw [hs]
    · rw [if_neg hs, if_neg (Ne.symm hs)]

theorem fpAdder_comm_of_not_nan (h : f.supported = true) (ha : isNaN f a = false) (hb : isNaN f b = false) :
    fpAdder f a b rm = fpAdder f b a rm := by
  obtain ia | ⟨va, ha⟩ := isInf_or_exists_value ha <;> obtain ib | ⟨vb, hb⟩ := isInf_or_exists_value hb
  · exact fpAdder_comm_of_infs rm ia ib
  · rw [fpAdder_of_inf_left rm h ia hb, fpAdder_of_inf_right rm h hb ia]
  · rw [fpAdder_of_inf_right rm h ha ib, fpAdder_of_inf_left rm h ib ha]
  · exact fpAdder_comm_of_values rm h ha hb

theorem fpAdder_comm (h : f.supported = true) (hnan : ¬(isNaN f a = true ∧ isNaN f b = true)) :
    fpAdder f a b rm = fpAdder f b a rm := by
  cases ha : isNaN f a <;> cases hb : isNaN f b
  · exact fpAdder_comm_of_not_nan rm h ha hb
  · rw [fpAdder_of_nan_right rm ha hb, fpAdder_of_nan_left rm hb]
  · rw [fpAdder_of_nan_left rm ha, fpAdder_of_nan_right rm hb ha]
  · exact absurd ⟨ha, hb⟩ hnan

variable (f a b)

/-- R175 to R178: the product, the sum of the exponents and the sign do not depend on the order. -/
theorem mulFinite_comm : mulFinite f a b rm = mulFinite f b a rm := by
  simp only [mulFinite]
  rw [Nat.mul_comm (fpNormalize f (expOf f a) (manOf f a)).2, add_comm (fpNormalize f (expOf f a) (manOf f a)).1,
    Bool.xor_comm]

variable {f a b}

/-- R172 to R174: each special case of FMUL tests both operands alike. -/
theorem fpMultiplier_comm_of_not_nan (ha : isNaN f a = false) (hb : isNaN f b = false) :
    fpMultiplier f a b rm = fpMultiplier f b a rm := by
  have hinvalid : (isZero f a = true ∧ isInf f b = true) ∨ (isInf f a = true ∧ isZero f b = true) ↔
      (isZero f b = true ∧ isInf f a = true) ∨ (isInf f b = true ∧ isZero f a = true) := by
    rw [or_comm, and_comm, and_comm (a := isZero f a = true)]
  have hzero : isZero f a = true ∨ isZero f b = true ↔ isZero f b = true ∨ isZero f a = true := or_comm
  have hinf : isInf f a = true ∨ isInf f b = true ↔ isInf f b = true ∨ isInf f a = true := or_comm
  simp only [fpMultiplier, ha, hb, Bool.false_eq_true, if_false, hinvalid, hzero, hinf,
    Bool.xor_comm (signOf f a) (signOf f b), mulFinite_comm f a b]

theorem fpMultiplier_comm (hnan : ¬(isNaN f a = true ∧ isNaN f b = true)) :
    fpMultiplier f a b rm = fpMultiplier f b a rm := by
  cases ha : isNaN f a <;> cases hb : isNaN f b
  · exact fpMultiplier_comm_of_not_nan rm ha hb
  · rw [fpMultiplier_of_nan_right rm ha hb, fpMultiplier_of_nan_left rm hb]
  · rw [fpMultiplier_of_nan_left rm ha, fpMultiplier_of_nan_right rm hb ha]
  · exact absurd ⟨ha, hb⟩ hnan

end

/-- Settles O33: the exchanged operands are on the ports, and both components give the same result for them. -/
theorem faddAndFmulCommuteUnlessBothAreNan : Obligations.FaddAndFmulCommuteUnlessBothAreNan := by
  refine fun s rm h hnan => ⟨⟨_, exec_fadd_eq h rfl, ?_⟩, ⟨_, exec_fmul_eq h rfl, ?_⟩⟩
  · exact exec_fadd_eq (s := s.present s.op s.rm s.b s.a) h (fpAdder_comm rm h hnan).symm
  · exact exec_fmul_eq (s := s.present s.op s.rm s.b s.a) h (fpMultiplier_comm rm hnan).symm

/-! ### Sums of subnormals (R152) -/

/-- R90: a subnormal stands for a nonzero whole number of `minUnit`, less than `2^M` of them. -/
theorem exists_int_of_isSubnormal {f : Fmt} {x : BitVec f.W} {v : ℚ} (hx : isSubnormal f x = true)
    (hv : value? f x = some v) : ∃ z : Int, v = z * minUnit f ∧ z ≠ 0 ∧ z.natAbs < 2 ^ f.mbits := by
  obtain ⟨he, hm⟩ : expOf f x = 0 ∧ manOf f x ≠ 0 := by simpa [isSubnormal] using hx
  have hlt := manOf_lt f x
  have hmag : mag f x = manOf f x := by rw [mag_eq, he, Nat.mul_zero, Nat.zero_add]
  have habs : |v| = manOf f x * minUnit f := by rw [abs_value hv, hmag, codeMag, codeUnits_of_exp_zero f hlt]
  obtain rfl | rfl := eq_or_eq_neg_of_abs_eq habs
  · exact ⟨manOf f x, by push_cast; rfl, by omega, by omega⟩
  · exact ⟨-manOf f x, by push_cast; ring, by omega, by omega⟩

theorem signFactor_mul_natAbs (z : Int) : signFactor (decide (z < 0)) * z.natAbs = z := by
  rw [Nat.cast_natAbs, Int.cast_abs]
  obtain hz | hz := lt_or_ge z 0
  · have hq : (z : ℚ) < 0 := by exact_mod_cast hz
    simp [signFactor, hz, abs_of_neg hq]
  · have hq : (0 : ℚ) ≤ z := by exact_mod_cast hz
    simp [signFactor, hz.not_gt, abs_of_nonneg hq]

/-- Below `2^(M+1)` of them, a whole number of `minUnit` is the value of an encoding. -/
theorem exists_value_eq_int_mul_minUnit {f : Fmt} (h : f.supported = true) {z : Int}
    (hz : z.natAbs < 2 ^ (f.mbits + 1)) : ∃ x, value? f x = some (z * minUnit f) := by
  have hlimit : 2 ^ (f.mbits + 1) ≤ codeLimit f := by
    rw [pow_succ', codeLimit]
    exact Nat.mul_le_mul_right _ (one_lt_emaxc h)
  have hcode : codeMag f z.natAbs = z.natAbs * minUnit f := by
    simpa using codeMag_binade f (p := 0) (.inl rfl) hz.le
  refine ⟨encOf f (decide (z < 0)) z.natAbs, ?_⟩
  rw [value?_encOf h _ (hz.trans_le hlimit), hcode, ← mul_assoc, signFactor_mul_natAbs]

/-- Settles O34: the sum is a whole number of `minUnit` that the format can hold, so it is returned exactly. -/
theorem sumOfSubnormalsIsExact : Obligations.SumOfSubnormalsIsExact := by
  intro s rm va vb h ha hb hva hvb
  obtain ⟨za, rfl, hza, hlta⟩ := exists_int_of_isSubnormal ha hva
  obtain ⟨zb, rfl, hzb, hltb⟩ := exists_int_of_isSubnormal hb hvb
  have hne {z : Int} (hz : z ≠ 0) : z * minUnit s.fmt ≠ 0 := mul_ne_zero (by exact_mod_cast hz) (minUnit_pos _).ne'
  have hlt : (za + zb).natAbs < 2 ^ (s.fmt.mbits + 1) := by
    rw [pow_succ]
    omega
  obtain ⟨x, hx⟩ := exists_value_eq_int_mul_minUnit h hlt
  rw [Int.cast_add, add_mul] at hx
  refine ⟨_, exec_fadd_eq h (fpAdder_of_values h hva hvb (hne hza) (hne hzb) rm), ?_⟩
  split_ifs with hsum
  · rw [hsum, value?_of_isZero (isZero_zero ..)]
  · rw [roundToFormat_value h hx hsum, hx]

/-! ### The paths of the adder (R147, R148, R150) -/

/-- Settles O36: the tail is the round bit's half and what is left below it. -/
theorem farPathPartsStandForTheExactSum : Obligations.FarPathPartsStandForTheExactSum := by
  intro f sa sb d ea same ha ha' hb hb' hd
  obtain ⟨sig, e, rb, r, hparts, hlo, hhi, -, hr0, hr1, hval⟩ :=
    exists_farParts ea same ha ha' ((Nat.two_pow_pos _).trans_le hb) hb' hd
  rw [hparts]
  refine ⟨hlo, hhi, (b2n rb : ℚ) / 2 + r, ?_⟩
  cases rb with
  | false =>
    simp only [b2n, Bool.false_eq_true, if_false, Nat.cast_zero, zero_div, zero_add] at hval ⊢
    exact ⟨hr0, by linarith, hr1.ne, iff_of_false id hr1.not_gt, hval⟩
  | true =>
    simp only [b2n, if_true, Nat.cast_one] at hval ⊢
    exact ⟨by linarith, by linarith, by linarith, iff_of_true trivial (by linarith), hval⟩

/-- Settles O37: `2M + 5` is the width in which `nearSum_spec` has the sum. -/
theorem nearPathSumIsExactAndFitsItsWidth : Obligations.NearPathSumIsExactAndFitsItsWidth := by
  intro f sa sb d same ha ha' _ hb' hd h0
  obtain ⟨hsum, hlt, -⟩ := nearSum_spec same ha ha' hb' hd h0
  have hwidth : f.mbits + f.guard + 2 = 2 * f.mbits + 5 := by unfold Fmt.guard; ring
  exact ⟨hsum, hwidth ▸ hlt⟩

/-- Settles O38: what a cancellation leaves is at least half a unit of `a`'s last place, which `M + 1` shifts bring up. -/
theorem leftShiftsReachTheImplicitBitInTime : Obligations.LeftShiftsReachTheImplicitBitInTime := by
  intro f sa sb d same e ha ha' _ hb' hd h0 hne hhi
  obtain ⟨-, -, hcancel⟩ := nearSum_spec same ha ha' hb' hd h0
  obtain ⟨k, heq, hklo, hkhi⟩ := exists_leftShifts_eq e (hcancel hne) hhi
  rw [heq]
  refine ⟨hklo, hkhi, ?_⟩
  rw [zpow_sub₀ two_ne_zero, zpow_natCast]
  push_cast
  field_simp

end Sys2Proof.Proofs

namespace Sys2Proof.Proofs

open Sys2Proof Sys2Proof.Machine

/-! ### FMUL's special cases (R172 to R174) -/

/-- R84. -/
theorem isZero_of_isInf {f : Fmt} (h : f.supported = true) {x : BitVec f.W} (hx : isInf f x = true) :
    isZero f x = false := by
  obtain ⟨he, -⟩ := (isInf_iff f x).mp hx
  simp [isZero, he, (Nat.zero_lt_of_lt (one_lt_emaxc h)).ne']

section

variable {f : Fmt} {a b : BitVec f.W} (rm : RoundingMode)

/-- R179: one operand that is no NaN is enough for the order not to matter. -/
theorem fpMultiplier_comm_of_left_not_nan (ha : isNaN f a = false) : fpMultiplier f a b rm = fpMultiplier f b a rm :=
  fpMultiplier_comm rm fun hnan => by simp [ha] at hnan

variable (h : f.supported = true)
include h

/-- R172. -/
theorem fpMultiplier_of_zero_inf (za : isZero f a = true) (ib : isInf f b = true) : fpMultiplier f a b rm = cnan f := by
  have na := isNaN_of_value h (value?_of_isZero za)
  simp [fpMultiplier, na, isNaN_of_isInf ib, za, ib]

/-- R173: neither operand is an infinity, so R172 does not apply. -/
theorem fpMultiplier_of_zero_value {vb : ℚ} (za : isZero f a = true) (hb : value? f b = some vb) :
    fpMultiplier f a b rm = zero f (signOf f a ^^ signOf f b) := by
  have ha := value?_of_isZero za
  simp [fpMultiplier, isNaN_of_value h ha, isNaN_of_value h hb, isInf_of_value h ha, isInf_of_value h hb, za]

/-- R174: neither operand is a zero, so R172 and R173 do not apply. -/
theorem fpMultiplier_of_inf_nonzero (ia : isInf f a = true) (zb : isZero f b = false) (nb : isNaN f b = false) :
    fpMultiplier f a b rm = inf f (signOf f a ^^ signOf f b) := by
  simp [fpMultiplier, isNaN_of_isInf ia, nb, isZero_of_isInf h ia, zb, ia]

end

/-- Settles O39: with no NaN on the ports the product's dispatch meets the zeros and infinities in the order of R172 to R174, and each mirrored clause is the first one with the operands exchanged. -/
theorem fmulSpecialCases : Obligations.FmulSpecialCases := by
  refine fun s rm h => ⟨fun za ib => ?_, fun ia zb => ?_, fun za hb => ?_, fun ha zb => ?_,
    fun ia zb nb => ?_, fun za na ib => ?_⟩ <;> refine exec_fmul_eq h ?_
  · exact fpMultiplier_of_zero_inf rm h za ib
  · rw [fpMultiplier_comm_of_left_not_nan rm (isNaN_of_isInf ia), fpMultiplier_of_zero_inf rm h zb ia]
  · obtain ⟨vb, hb⟩ := exists_value_of_isFinite hb
    exact fpMultiplier_of_zero_value rm h za hb
  · obtain ⟨va, ha⟩ := exists_value_of_isFinite ha
    rw [fpMultiplier_comm_of_left_not_nan rm (isNaN_of_value h ha), fpMultiplier_of_zero_value rm h zb ha, Bool.xor_comm]
  · exact fpMultiplier_of_inf_nonzero rm h ia zb nb
  · rw [fpMultiplier_comm_of_left_not_nan rm na, fpMultiplier_of_inf_nonzero rm h ib za na, Bool.xor_comm]

end Sys2Proof.Proofs

namespace Sys2Proof.Proofs

open Sys2Proof Sys2Proof.Machine

/-! ### FDIV's special cases (R191 to R195) -/

section

variable {f : Fmt} {a b : BitVec f.W} (rm : RoundingMode)

/-- R191. -/
theorem fpDivider_of_zeros (za : isZero f a = true) (zb : isZero f b = true) : fpDivider f a b rm = cnan f :=
  if_pos (.inl ⟨za, zb⟩)

/-- R191. -/
theorem fpDivider_of_infs (ia : isInf f a = true) (ib : isInf f b = true) : fpDivider f a b rm = cnan f :=
  if_pos (.inr ⟨ia, ib⟩)

variable (h : f.supported = true) {va vb : ℚ}
include h

/-- R193: the dividend is no zero and the divisor no infinity, so R191 does not apply. -/
theorem fpDivider_of_nonzero_zero (na : isNaN f a = false) (za : isZero f a = false) (zb : isZero f b = true) :
    fpDivider f a b rm = inf f (signOf f a ^^ signOf f b) := by
  have hb := value?_of_isZero zb
  simp [fpDivider, na, za, zb, isNaN_of_value h hb, isInf_of_value h hb]

/-- R194: the divisor is no zero, so R193 does not apply. -/
theorem fpDivider_of_value_inf (ha : value? f a = some va) (ib : isInf f b = true) :
    fpDivider f a b rm = zero f (signOf f a ^^ signOf f b) := by
  simp [fpDivider, isNaN_of_value h ha, isInf_of_value h ha, isNaN_of_isInf ib, isZero_of_isInf h ib, ib]

/-- R195 for a zero dividend: the divisor is neither a zero nor an infinity, so R193 and R194 do not apply. -/
theorem fpDivider_of_zero_value (za : isZero f a = true) (hb : value? f b = some vb) (zb : isZero f b = false) :
    fpDivider f a b rm = zero f (signOf f a ^^ signOf f b) := by
  have na := isNaN_of_value h (value?_of_isZero za)
  simp [fpDivider, na, za, zb, isNaN_of_value h hb, isInf_of_value h hb]

/-- R195 for an infinite dividend, which no earlier case asks for. -/
theorem fpDivider_of_inf_value (ia : isInf f a = true) (hb : value? f b = some vb) (zb : isZero f b = false) :
    fpDivider f a b rm = inf f (signOf f a ^^ signOf f b) := by
  simp [fpDivider, isNaN_of_isInf ia, isZero_of_isInf h ia, ia, zb, isNaN_of_value h hb, isInf_of_value h hb]

end

/-- Settles O41: with no NaN on the ports the quotient's dispatch meets the zeros and infinities in the order of R191 to R195. -/
theorem fdivSpecialCases : Obligations.FdivSpecialCases := by
  refine fun s rm h => ⟨fun za zb => ?_, fun ia ib => ?_, fun na za zb => ?_, fun ha ib => ?_,
    fun za hb zb => ?_, fun ia hb zb => ?_⟩ <;> refine exec_fdiv_eq h ?_
  · exact fpDivider_of_zeros rm za zb
  · exact fpDivider_of_infs rm ia ib
  · exact fpDivider_of_nonzero_zero rm h na za zb
  · obtain ⟨va, ha⟩ := exists_value_of_isFinite ha
    exact fpDivider_of_value_inf rm h ha ib
  · obtain ⟨vb, hb⟩ := exists_value_of_isFinite hb
    exact fpDivider_of_zero_value rm h za hb zb
  · obtain ⟨vb, hb⟩ := exists_value_of_isFinite hb
    exact fpDivider_of_inf_value rm h ia hb zb

/-! ### The divider's steps (R196, R197) -/

/-- Settles O42: the pre-shifted ratio in `[1, 2)` bounds the quotient, and the division of naturals loses only its remainder. -/
theorem divisionStepsAreExact : Obligations.DivisionStepsAreExact := by
  intro f sa sb ea ha ha' hb hb'
  obtain ⟨pa, e, hpre, hle, hlt, hval⟩ := exists_preShift_eq ea ha ha' hb hb'
  obtain ⟨hqlo, hqhi⟩ := quotient_bounds (k := f.mbits + 1) hle hlt
  rw [hpre]
  refine ⟨hle, hlt, hval, hqlo, hqhi, ?_⟩
  exact_mod_cast quotient_add_remainder (pa * 2 ^ (f.mbits + 1)) ((Nat.two_pow_pos _).trans_le hb)

end Sys2Proof.Proofs

namespace Sys2Proof.Proofs

open Sys2Proof Sys2Proof.Machine

/-! ### Which results are NaNs (R211, R214) -/

/-- R211 and R214 for the result `y` of one component on `a` and `b`: a NaN operand wins, the first one first, then come the invalid cases, and nothing else gives a NaN. -/
structure NanRules (f : Fmt) (a b y : BitVec f.W) (invalid : Prop) : Prop where
  left : isNaN f a = true → y = quiet f a
  right : isNaN f a = false → isNaN f b = true → y = quiet f b
  canonical : invalid → y = cnan f
  number : isNaN f a = false → isNaN f b = false → ¬ invalid → isNaN f y = false

theorem isNaN_cnan {f : Fmt} (h : f.supported = true) : isNaN f (cnan f) = true := by
  have hexp : f.emaxc % 2 ^ f.ebits = f.emaxc := Nat.mod_eq_of_lt (emaxc_lt f)
  have hman : 2 ^ f.qbit % 2 ^ f.mbits = 2 ^ f.qbit :=
    Nat.mod_eq_of_lt (Nat.pow_lt_pow_right (by decide) (qbit_lt_mbits h))
  simp [isNaN, cnan, hexp, hman]

section

variable {f : Fmt} {a b y : BitVec f.W} {invalid : Prop}

/-- R215's three kinds. -/
theorem NanRules.kinds (hy : NanRules f a b y invalid) (hnan : isNaN f y = true) :
    y = cnan f ∨ (isNaN f a = true ∧ y = quiet f a) ∨ (isNaN f b = true ∧ y = quiet f b) := by
  cases na : isNaN f a with
  | true => exact .inr (.inl ⟨rfl, hy.left na⟩)
  | false =>
    cases nb : isNaN f b with
    | true => exact .inr (.inr ⟨rfl, hy.right na nb⟩)
    | false =>
      by_cases hi : invalid
      · exact .inl (hy.canonical hi)
      · simp [hy.number na nb hi] at hnan

/-- R211 with no NaN operand: the invalid cases give `CNAN`, and every other result is no NaN, so it is not `CNAN` either. -/
theorem NanRules.cnan_iff (hy : NanRules f a b y invalid) (h : f.supported = true) (na : isNaN f a = false)
    (nb : isNaN f b = false) : (isNaN f y = true → y = cnan f) ∧ (y = cnan f ↔ invalid) := by
  by_cases hi : invalid
  · exact ⟨fun _ => hy.canonical hi, iff_of_true (hy.canonical hi) hi⟩
  · have hnum : isNaN f y ≠ true := by simp [hy.number na nb hi]
    exact ⟨fun hnan => absurd hnan hnum, iff_of_false (fun heq => hnum (heq ▸ isNaN_cnan h)) hi⟩

end

/-! ### The rules hold of each component -/

section

variable {f : Fmt} (h : f.supported = true) (a b : BitVec f.W) (rm : RoundingMode)
include h

/-- Two infinities that are not invalid have one sign, and the sum is `a`. -/
theorem nanRules_fpAdder :
    NanRules f a b (fpAdder f a b rm) (isInf f a = true ∧ isInf f b = true ∧ signOf f a ≠ signOf f b) where
  left := fpAdder_of_nan_left rm
  right := fpAdder_of_nan_right rm
  canonical := fun ⟨ia, ib, hs⟩ => (fpAdder_of_infs rm ia ib).trans (if_neg hs)
  number na nb hi := by
    obtain ia | ⟨va, ha⟩ := isInf_or_exists_value na <;> obtain ib | ⟨vb, hb⟩ := isInf_or_exists_value nb
    · have hs : signOf f a = signOf f b := by simpa [ia, ib] using hi
      rwa [fpAdder_of_infs rm ia ib, if_pos hs]
    · rwa [fpAdder_of_inf_left rm h ia hb]
    · rwa [fpAdder_of_inf_right rm h ha ib]
    · rw [fpAdder_of_not_special rm na nb (isInf_of_value h ha) (isInf_of_value h hb)]
      split_ifs
      · exact isNaN_addOrdered h rm nb na
      · exact isNaN_addOrdered h rm na nb

/-- R153: the adder's rules for `neg(b)`, whose sign is the other one. -/
theorem nanRules_fpSub :
    NanRules f a (neg f b) (fpSub f a b rm) (isInf f a = true ∧ isInf f b = true ∧ signOf f a = signOf f b) := by
  simpa [fpSub] using nanRules_fpAdder h a (neg f b) rm

theorem nanRules_fpMultiplier :
    NanRules f a b (fpMultiplier f a b rm)
      ((isZero f a = true ∧ isInf f b = true) ∨ (isInf f a = true ∧ isZero f b = true)) where
  left := fpMultiplier_of_nan_left rm
  right := fpMultiplier_of_nan_right rm
  canonical := by
    rintro (⟨za, ib⟩ | ⟨ia, zb⟩)
    · exact fpMultiplier_of_zero_inf rm h za ib
    · rw [fpMultiplier_comm_of_left_not_nan rm (isNaN_of_isInf ia), fpMultiplier_of_zero_inf rm h zb ia]
  number na nb hi := by
    rw [fpMultiplier, if_neg (by simp [na]), if_neg (by simp [nb]), if_neg hi]
    split_ifs
    · exact isNaN_zero h _
    · exact isNaN_inf f _
    · exact isNaN_mulFinite h a b rm

theorem nanRules_fpDivider :
    NanRules f a b (fpDivider f a b rm)
      ((isZero f a = true ∧ isZero f b = true) ∨ (isInf f a = true ∧ isInf f b = true)) where
  left := fpDivider_of_nan_left rm h
  right := fpDivider_of_nan_right rm h
  canonical := fun hi => if_pos hi
  number na nb hi := by
    rw [fpDivider, if_neg hi, if_neg (by simp [na]), if_neg (by simp [nb])]
    split_ifs
    · exact isNaN_inf f _
    · exact isNaN_zero h _
    · exact isNaN_zero h _
    · exact isNaN_inf f _
    · exact isNaN_divFinite h a b rm

end

/-! ### The commands (R210, R211, R215) -/

/-- Settles O44: in a legal build `drive` answers a next state, and every command ends in it. -/
theorem everyCommandCompletesOnEveryInput : Obligations.EveryCommandCompletesOnEveryInput :=
  fun _ _ h => ⟨exec_fadd_eq h rfl, exec_fsub_eq h rfl, exec_fmul_eq h rfl, exec_fdiv_eq h rfl⟩

/-- Settles O45: a component's NaN is quiet whatever its dispatch, and `NanRules` says which one it is. -/
theorem everyNanResultIsQuietAndOfOneOfThreeKinds : Obligations.EveryNanResultIsQuietAndOfOneOfThreeKinds := by
  intro s rm h
  refine ⟨⟨_, exec_fadd_eq h rfl, fun hy => ⟨nanIsQuiet_fpAdder h s.a s.b rm hy, ?_⟩⟩,
    ⟨_, exec_fsub_eq h rfl, fun hy => ⟨nanIsQuiet_fpAdder h s.a (neg s.fmt s.b) rm hy, ?_⟩⟩,
    ⟨_, exec_fmul_eq h rfl, fun hy => ⟨nanIsQuiet_fpMultiplier h s.a s.b rm hy, ?_⟩⟩,
    ⟨_, exec_fdiv_eq h rfl, fun hy => ⟨nanIsQuiet_fpDivider h s.a s.b rm hy, ?_⟩⟩⟩
  · exact (nanRules_fpAdder h s.a s.b rm).kinds hy
  · simpa only [isNaN_neg] using (nanRules_fpSub h s.a s.b rm).kinds hy
  · exact (nanRules_fpMultiplier h s.a s.b rm).kinds hy
  · exact (nanRules_fpDivider h s.a s.b rm).kinds hy

/-- Settles O46: each command's invalid cases are those of its component's `NanRules`. -/
theorem invalidOperationsAndNoOthersGiveTheCanonicalNan :
    Obligations.InvalidOperationsAndNoOthersGiveTheCanonicalNan := by
  intro s rm h na nb
  have nb' : isNaN s.fmt (neg s.fmt s.b) = false := (isNaN_neg s.fmt s.b).trans nb
  exact ⟨⟨_, exec_fadd_eq h rfl, (nanRules_fpAdder h s.a s.b rm).cnan_iff h na nb⟩,
    ⟨_, exec_fsub_eq h rfl, (nanRules_fpSub h s.a s.b rm).cnan_iff h na nb'⟩,
    ⟨_, exec_fmul_eq h rfl, (nanRules_fpMultiplier h s.a s.b rm).cnan_iff h na nb⟩,
    ⟨_, exec_fdiv_eq h rfl, (nanRules_fpDivider h s.a s.b rm).cnan_iff h na nb⟩⟩

end Sys2Proof.Proofs

namespace Sys2Proof.Proofs

open Sys2Proof Sys2Proof.Machine

/-! ### The host presents, waits and samples (R233, R237) -/

/-- R233's change of `op`, `rm`, `a` or `b`, as a proposition. -/
theorem changedBy_eq_true_iff (s : State) (op rm : BitVec 2) (a b : BitVec s.fmt.W) :
    s.changedBy op rm a b = true ↔ op ≠ s.op ∨ rm ≠ s.rm ∨ a ≠ s.a ∨ b ≠ s.b := by
  rw [← Bool.not_eq_false, s.changedBy_eq_false]
  simp only [not_and_or, ne_eq]

/-- A step after the host presents inputs answers the driven state of those inputs, changed or not. -/
theorem step_present {s : State} (h : s.fmt.supported = true) (op rm : BitVec 2) (a b : BitVec s.fmt.W) :
    step (s.present op rm a b) = .next ((s.present op rm a b).driven (fpCoreY s.fmt op rm a b)) :=
  step_of_supported (s := s.present op rm a b) h

/-- Settles O54: presenting puts the inputs on the ports and leaves the format, and driving overwrites every output the change left free. -/
theorem presentStepSampleGivesTheFunctionOfTheInputs : Obligations.PresentStepSampleGivesTheFunctionOfTheInputs :=
  fun s op rm a b h =>
    ⟨fpCoreY s.fmt op rm a b, fpClassify s.fmt a, fpClassify s.fmt b, step_present h op rm a b, rfl⟩

/-- Settles O57: the values already on the ports are no change, and any other values are one. -/
theorem onlyAnInputChangeUnsettlesTheOutputs : Obligations.OnlyAnInputChangeUnsettlesTheOutputs := by
  refine ⟨fun s => present_of_unchanged ((s.changedBy_eq_false ..).mpr ⟨rfl, rfl, rfl, rfl⟩), ?_⟩
  intro s op rm a b h
  rw [State.present_of_changed ((changedBy_eq_true_iff s op rm a b).mpr h)]
  exact ⟨rfl, rfl⟩

end Sys2Proof.Proofs

namespace Sys2Proof.Proofs

open Sys2Proof Sys2Proof.Machine

/-! ### Decoding an encoded command (R60, R62 to R64) -/

/-- R63: the four modes have four different codes. -/
@[simp] theorem decodeMode_encodeMode (rm : RoundingMode) : decodeMode (encodeMode rm) = rm := by
  cases rm <;> rfl

/-- R62, R63: the codes of a command's operation and mode, on the ports, are that command. -/
@[simp] theorem decodePorts_encode (i : Instr) : decodePorts (encodeOp i) (encodeMode i.mode) = i := by
  cases i with
  | fadd rm => exact congrArg Instr.fadd (decodeMode_encodeMode rm)
  | fsub rm => exact congrArg Instr.fsub (decodeMode_encodeMode rm)
  | fmul rm => exact congrArg Instr.fmul (decodeMode_encodeMode rm)
  | fdiv rm => exact congrArg Instr.fdiv (decodeMode_encodeMode rm)

@[simp] theorem decodeCmd_encodeCmd (i : Instr) : decodeCmd (encodeCmd i) = i := by
  rw [encodeCmd, decodeCmd_cmdOf, decodePorts_encode]

/-- R64: every command word is the word of the command it decodes to. -/
@[simp] theorem encodeCmd_decodeCmd (cmd : BitVec 4) : encodeCmd (decodeCmd cmd) = cmd := by
  rw [decodeCmd, encodeCmd_decodePorts]
  exact BitVec.extractLsb'_append_extractLsb'

/-- R65: a byte above 0xF holds no command, whatever follows it. -/
theorem decode_of_ge {b : BitVec 8} (h : 16 ≤ b.toNat) (rest : List (BitVec 8)) :
    decode (b :: rest) = .error .notFourBits :=
  if_neg (not_lt.mpr h)

/-- Log entry 6: a command word in the low four bits of a byte is decoded, and the bytes after it are left. -/
theorem decode_setWidth_cons (cmd : BitVec 4) (rest : List (BitVec 8)) :
    decode (cmd.setWidth 8 :: rest) = .ok (decodeCmd cmd, rest) := by
  have hlt : (cmd.setWidth 8).toNat < 16 := by
    rw [BitVec.toNat_setWidth_of_le (by decide)]
    exact cmd.isLt
  rw [decode, if_pos hlt, BitVec.setWidth_setWidth_of_le _ (by decide), BitVec.setWidth_eq]

theorem decode_encode_append (i : Instr) (rest : List (BitVec 8)) : decode (encode i ++ rest) = .ok (i, rest) := by
  rw [encode, List.singleton_append, decode_setWidth_cons, decodeCmd_encodeCmd]

/-- Settles O2: the byte of a command is its word, and the word's two fields are the codes of operation and mode. -/
theorem decodeAndEncodeAgreeOnCommands : Obligations.DecodeAndEncodeAgreeOnCommands :=
  ⟨decode_encode_append, encodeCmd_decodeCmd, fun _ rest h => decode_of_ge h rest⟩

/-! ### The encoding as a number (R81) -/

/-- Bits put side by side: the upper ones weigh `2^n`. -/
theorem toNat_append_eq_add {k n : Nat} (x : BitVec k) (y : BitVec n) :
    (x ++ y).toNat = x.toNat * 2 ^ n + y.toNat := by
  rw [BitVec.toNat_append, ← Nat.shiftLeft_add_eq_or_of_lt y.isLt, Nat.shiftLeft_eq]

theorem toNat_ofBool_eq_b2n (s : Bool) : (BitVec.ofBool s).toNat = b2n s := by
  cases s <;> rfl

/-- Settles O4: the two appends of `fp_encode` give the three weights. -/
theorem encodeIsTheWeightedSumOfTheFields : Obligations.EncodeIsTheWeightedSumOfTheFields := by
  intro f v
  rw [fpEncode, toNat_append_eq_add, toNat_append_eq_add, toNat_ofBool_eq_b2n, W_sub_one, pow_add]
  ring

/-! ### The invariant at power-up -/

/-- At power-up nothing has settled, so nothing is asked of the outputs. -/
theorem good_powerUp {f : Fmt} (h : f.supported = true) : (State.powerUp f).Good :=
  ⟨h, fun hs => absurd hs (by simp)⟩

/-- Settles O56: reset is the power-up state of the binary32 build. -/
theorem resetIsGood : Obligations.ResetIsGood :=
  ⟨good_powerUp (by decide), good_powerUp (by decide), good_powerUp (by decide)⟩

/-! ### The resolver under R107's preconditions -/

/-- R107, R108, R110 for `e > 0`: nothing is left to round, and the result is the magnitude `sig * 2^(e - BIAS - M)` itself. -/
theorem fpResolve_of_pos {f : Fmt} (h : f.supported = true) (s : Bool) {e : Int} {sig : Nat} (xb : Nat) (sin : Bool)
    (rm : RoundingMode) (he : 0 < e) (hlo : 2 ^ f.mbits ≤ sig) (hhi : sig < 2 ^ (f.mbits + 1)) :
    fpResolve f s e sig xb sin rm = roundToFormat f s (sig * (2 : ℚ) ^ (e - f.bias - f.mbits)) rm := by
  obtain ⟨p, rfl⟩ : ∃ p : Nat, e = p + 1 := ⟨(e - 1).toNat, by omega⟩
  obtain ⟨m, rfl⟩ := Nat.exists_eq_add_of_le hlo
  have hm : m < 2 ^ f.mbits := by
    rw [pow_succ] at hhi
    omega
  have hcode : p * 2 ^ f.mbits + (2 ^ f.mbits + m) = (p + 1) * 2 ^ f.mbits + m := by ring
  have hne : p * 2 ^ f.mbits + (2 ^ f.mbits + m) ≠ 0 := by
    have := Nat.two_pow_pos f.mbits
    omega
  rw [← two_pow_mul_minUnit, ← codeMag_binade f (.inr hlo) hhi.le, roundToFormat_codeMag h s rm hne, hcode]
  exact fpResolve_of_exp s p.succ_pos hm xb sin rm

/-- Settles O17: with a normal exponent there is no tail and no extra bit, and otherwise the underflow branch rounds once. -/
theorem resolverIsTheExactRounding : Obligations.ResolverIsTheExactRounding := by
  intro f s e sig xb sin rm q h _ hlo hhi hnormal h0 h1 htail
  have hq : sin = true ↔ q ≠ 0 := htail.symm.trans h0.lt_iff_ne'
  obtain he | he := le_or_gt e 0
  · exact fpResolve_of_nonpos h s rm he ((Nat.two_pow_pos _).trans_le hlo) hhi h0 h1 hq
  · obtain ⟨rfl, rfl⟩ := hnormal he
    obtain rfl : q = 0 := by simpa using hq
    rw [fpResolve_of_pos h s 0 false rm he hlo hhi, add_zero, Nat.cast_zero, sub_zero]

end Sys2Proof.Proofs
